-- ==== Sys2Proof/Word.lean ====
section
/-!
DEFINITION. The widths of the block (R8, R13, R22, R24, R26, R56) and the form of a floating-point result (R98).
-/

namespace Sys2Proof

/-- A 24-bit word: `buffer`, `nextBitMask`, `pkt` and the three decoder masks. R13 fixes BUF_WIDTH at 24. -/
abbrev RawPacket := BitVec 24

/-- One operation word, `w[3:0]` (R56). -/
abbrev OpWord := BitVec 4

/-- The number `(negative ? -1 : 1) * significand * 2 ^ exponent`; zero keeps its sign (R98: `-0.0`). -/
structure FloatValue where
  negative : Bool
  significand : Nat
  exponent : Int
  deriving DecidableEq, Repr

end Sys2Proof
end

