-- ==== Sys2Proof/Syntax.lean ====
section
/-!
DEFINITION. The operation alphabet (R55): one constructor per row of spec/opcode_table.json.
-/

namespace Sys2Proof

/-- The four operations of the block; EDGE's operand is the one operand of any operation (R62). -/
inductive Instr where
  /-- An active clock edge with the raw data-line level (R57, R67). -/
  | edge (lvl : Bool)
  /-- One invocation of the Packet Framer (R58, R75). -/
  | tick
  /-- The consumer's atomic read-and-clear (R59, R90). -/
  | take
  /-- Back to the initial state (R60, R123). -/
  | reset
  deriving DecidableEq, Repr

end Sys2Proof
end

