-- ==== Sys2Proof/Decode.lean ====
section
/-!
DEFINITION. Format EV (R56): the decoder of one operation word and of a word list (R66), and the encoder.
-/

namespace Sys2Proof

/-- Why a word spells no operation. -/
inductive DecodeError where
  /-- A reserved word (R61). -/
  | reserved (w : OpWord)
  deriving DecidableEq, Repr

/-- `op = w[3:1]` (R56). -/
def opField (w : OpWord) : BitVec 3 := w.extractLsb' 1 3

/-- `d = w[0]` (R56). -/
def dField (w : OpWord) : Bool := w.getLsbD 0

/-- R57 to R61: total on any 4-bit word, a reserved word is rejected by name. -/
def decode (w : OpWord) : Except DecodeError Instr :=
  if opField w = 0b001#3 then .ok (.edge (dField w))
  else if opField w = 0b010#3 ∧ dField w = false then .ok .tick
  else if opField w = 0b011#3 ∧ dField w = false then .ok .take
  else if opField w = 0b100#3 ∧ dField w = false then .ok .reset
  else .error (.reserved w)

/-- R66: a word list is decoded word by word, and refused at its first reserved word. -/
def decodeRun : List OpWord → Except DecodeError (List Instr)
  | [] => .ok []
  | w :: ws =>
    match decode w with
    | .error e => .error e
    | .ok i =>
      match decodeRun ws with
      | .error e => .error e
      | .ok is => .ok (i :: is)

/-- Format EV, `op` in `w[3:1]` and `d` in `w[0]` (R56). -/
def formatEV (op : BitVec 3) (d : Bool) : OpWord := op ++ BitVec.ofBool d

/-- The word of an operation (R57 to R60). -/
def encode : Instr → OpWord
  | .edge lvl => formatEV 0b001#3 lvl
  | .tick => formatEV 0b010#3 false
  | .take => formatEV 0b011#3 false
  | .reset => formatEV 0b100#3 false

/-- The operation word whose bits are the number `w`, of which `nbits` bits are given and the others are 0. A number of 16
or more holds a bit outside `w[3:0]` and is no operation word (log entry 8). -/
def tableWord (nbits w : Nat) : Option OpWord :=
  if w % 2 ^ nbits < 16 then some (BitVec.ofNat 4 (w % 2 ^ nbits)) else none

/-- The operation the decoder reads from a word numbered as spec/opcode_table.json numbers it. -/
def decodeTableWord (nbits w : Nat) : Option Instr :=
  match tableWord nbits w with
  | none => none
  | some o =>
    match decode o with
    | .ok i => some i
    | .error _ => none

end Sys2Proof
end

