-- ==== Sys2Proof/Config.lean ====
section
/-!
DEFINITION. The parameters of 00_scope.md section 5 (R8 to R15, R30), and the values the spec leaves free.
-/

namespace Sys2Proof

/-- A transition of a line (R10). -/
inductive Transition where
  | rising
  | falling
  deriving DecidableEq, Repr

/-- The other transition. R10: an inverter turns each rising transition into a falling one (G3). -/
def Transition.opposite : Transition → Transition
  | .rising => .falling
  | .falling => .rising

/-- `PUBLISH_AT` (R14): when a complete packet is published. -/
inductive PublishAt where
  /-- Only at the tick that detects the gap (R78), the default. -/
  | gap
  /-- At every tick that sees 24 bits (R79). -/
  | count
  deriving DecidableEq, Repr

/-- `OVERRUN_POLICY` (D8). -/
inductive OverrunPolicy where
  /-- Overruns are counted and dropped at the gap: the only policy with a meaning. -/
  | defer
  /-- The source names it and gives no behaviour: refused (U7). -/
  | hardFail
  deriving DecidableEq, Repr

/-- `FLOAT_FORMAT` (R15, R98), OPEN. -/
inductive FloatFormat where
  | binary32
  | binary64
  | binary128
  /-- Any other format, under a number of the reader's own: R98 says nothing of it. -/
  | other (tag : Nat)
  deriving DecidableEq, Repr

/-- The significand's width in bits of the IEEE 754 binary formats R98 speaks of. PRESUMED (IEEE 754, G1), log entry 15. -/
def FloatFormat.precision : FloatFormat → Option Nat
  | .binary32 => some 24
  | .binary64 => some 53
  | .binary128 => some 113
  | .other _ => none

/-- The configuration, fixed before the first operation of a run (R30, R125). A value the spec calls illegal can be
written down here, so that the model can refuse it (R31, R108). -/
structure Config where
  /-- `PACKET_BIT_COUNT`: 24, any other value is refused (R8). -/
  packetBitCount : Nat
  /-- `INVERT` (R9). -/
  invert : Bool
  /-- `ACTIVE_EDGE_NONINV` (R10). -/
  activeEdgeNoninv : Transition
  /-- `DATA_MASK` (R11). -/
  dataMask : RawPacket
  /-- `SIGN_MASK` (R11). -/
  signMask : RawPacket
  /-- `UNIT_MASK` (R11). -/
  unitMask : RawPacket
  /-- `P`, in a unit of time of the reader's own (R12). -/
  tickPeriod : Nat
  /-- `maxInterBitGap` (R12). -/
  maxInterBitGap : Nat
  /-- `packetGapDuration` (R12). -/
  packetGapDuration : Nat
  /-- `CNT_WIDTH` (R13). -/
  cntWidth : Nat
  /-- `PUBLISH_AT` (R14). -/
  publishAt : PublishAt
  /-- `OVERRUN_POLICY` (D8). -/
  overrunPolicy : OverrunPolicy
  /-- `DEBUG_PRESENT` (R15). -/
  debugPresent : Bool
  /-- `FLOAT_FORMAT` (R15). -/
  floatFormat : FloatFormat
  /-- `TAKE_LATENCY` (R139). -/
  takeLatency : Nat
  /-- `SYNC_STAGES` (R138). -/
  syncStages : Nat
  deriving DecidableEq, Repr

/-- `SAT = 2^CNT_WIDTH - 1` (R13). -/
def Config.sat (c : Config) : Nat := 2 ^ c.cntWidth - 1

/-- The active transition of the serial clock (R10). -/
def Config.activeEdge (c : Config) : Transition :=
  if c.invert then c.activeEdgeNoninv.opposite else c.activeEdgeNoninv

/-- The timing relation of R128: `maxInterBitGap < P < packetGapDuration / 2`. The block never checks it. -/
def Config.envelope (c : Config) : Bool :=
  c.maxInterBitGap < c.tickPeriod && 2 * c.tickPeriod < c.packetGapDuration

/-- The defaults of 00_scope.md section 5. The OPEN parameters carry a DESIGN CHOICE, log entry 2. -/
def Config.standard : Config where
  packetBitCount := 24
  invert := false
  activeEdgeNoninv := .rising
  dataMask := 0x0FFFFF#24
  signMask := 0x100000#24
  unitMask := 0x800000#24
  tickPeriod := 2
  maxInterBitGap := 1
  packetGapDuration := 5
  cntWidth := 16
  publishAt := .gap
  overrunPolicy := .defer
  debugPresent := true
  floatFormat := .binary64
  takeLatency := 0
  syncStages := 2

/-- The masks are those of the decoder's description: "low 20 bits", "bit 20", "bit 23" (R11). -/
def Config.defaultMasks (c : Config) : Bool :=
  c.dataMask == 0x0FFFFF#24 && c.signMask == 0x100000#24 && c.unitMask == 0x800000#24

/-- FREE VALUE: what the `n`-th RESET draws for `pkt` (R123 "any 24-bit value", U2). Log entry 4. -/
opaque Config.freePacket : Nat → RawPacket

/-- FREE VALUE: a measurement's binary form in a format R98 does not speak of, a function of the format's number, the
sign and the exact value's numerator and denominator. Log entry 15. -/
opaque Config.freeFloat : Nat → Bool → Nat → Nat → Nat × Int

end Sys2Proof
end

