-- ==== Sys2Proof/WellFormed.lean ====
section
/-!
DEFINITION. What may be run: the legal configurations (R31, R8) and the well-formed operations (R62).
-/

namespace Sys2Proof

/-- Why a configuration is refused (R108 (b)), by name. -/
inductive ConfigError where
  /-- `PACKET_BIT_COUNT != 24` (R8). -/
  | packetBitCount
  /-- `CNT_WIDTH < 5` (R31). -/
  | cntWidth
  /-- A policy other than DEFER (D8, U7). -/
  | overrunPolicy
  /-- `SYNC_STAGES < 2` (R138); it concerns a clk cycle only, log entry 12. -/
  | syncStages
  /-- `TAKE_LATENCY` neither 0 nor 1 (R139); it concerns a clk cycle only, log entry 12. -/
  | takeLatency
  deriving DecidableEq, Repr

/-- The check of R31 and R8. INVERT, ACTIVE_EDGE_NONINV, the masks, PUBLISH_AT and DEBUG_PRESENT have no illegal value
by their types. -/
def Config.check (c : Config) : Option ConfigError :=
  if c.packetBitCount ≠ 24 then some .packetBitCount
  else if c.cntWidth < 5 then some .cntWidth
  else if c.overrunPolicy ≠ .defer then some .overrunPolicy
  else none

/-- The further check that one cycle of the realisation needs (R138, R139). -/
def Config.checkCycle (c : Config) : Option ConfigError :=
  if c.syncStages < 2 then some .syncStages
  else if 1 < c.takeLatency then some .takeLatency
  else none

/-- The configuration is one the spec gives a meaning (R31). -/
def Config.legal (c : Config) : Bool := c.check == none

/-- A well-formed operation (R62): EDGE's operand is one bit by its type and the others have none, so every term is
well-formed. Ill-formed WORDS are the decoder's to reject. -/
def Instr.wf : Instr → Bool
  | .edge _ => true
  | .tick => true
  | .take => true
  | .reset => true

end Sys2Proof
end

