-- ==== Sys2Proof/Machine/State.lean ====
section
/-!
DEFINITION. The state of the block: the eight elements of R20, the cycle-level realisation's registers (R138, R139), and the
model's own fields (configuration, supplied operations, observation, draw counter); the reasons a step stops; reset.
-/

namespace Sys2Proof.Machine

/-- The Framer's classification of its last tick (R29). -/
inductive Phase where
  | idle
  | accumulating
  | gapDetected
  deriving DecidableEq, Repr

/-- The 2-bit code of R29; `0b11` is never held. -/
def Phase.code : Phase → BitVec 2
  | .idle => 0b00#2
  | .accumulating => 0b01#2
  | .gapDetected => 0b10#2

/-- The unit of a measurement (R96). -/
inductive LengthUnit where
  | mm
  | inch
  deriving DecidableEq, Repr

/-- The sign of a measurement (R95), carried beside the value so that a negative zero is told apart (R97). -/
inductive Sign where
  | positive
  | negative
  deriving DecidableEq, Repr

/-- A decoded packet (R93): the exact rational value (R97), the unit and the sign. -/
structure Measurement where
  value : Rat
  unit : LengthUnit
  sign : Sign
  deriving DecidableEq, Repr

/-- TAKE's result (R91): none, or the raw packet with its measurement. -/
abbrev TakeResult := Option (RawPacket × Measurement)

/-- What the lines and strobes carry in one clk cycle (R138). -/
structure Pins where
  /-- The serial clock line. -/
  sclk : Bool
  /-- The data line. -/
  sdata : Bool
  /-- The timer's one-cycle strobe. -/
  tick : Bool
  /-- The consumer's one-cycle strobe. -/
  take : Bool
  /-- The reset source's line. DESIGN CHOICE (log entry 19): every cycle in which it is 1 is one reset assertion (R63), so a line
  held over several cycles is one RESET in each. -/
  reset : Bool
  deriving DecidableEq, Repr

/-- One thing the environment supplies (log entries 5, 11, 13). -/
inductive Input where
  /-- One operation word (R56, R66). -/
  | word (w : OpWord)
  /-- One clk cycle of the realisation (R138). -/
  | cycle (p : Pins)
  /-- Another configuration presented during the run: refused if it is a change (R108 (c)). -/
  | configure (c : Config)
  deriving DecidableEq, Repr

/-- The registers of the cycle-level realisation (R138, R139), newest synchroniser stage first. -/
structure FrontEnd where
  sclkSync : List Bool
  sdataSync : List Bool
  /-- A result that reaches the output in the next cycle (TAKE_LATENCY 1); `none`: no TAKE in the last cycle. -/
  takePending : Option TakeResult
  /-- The output register: the result held until the next TAKE. -/
  takeOut : TakeResult
  deriving DecidableEq, Repr

/-- The state: R20's tuple first, then the realisation's registers, then the model's own fields. -/
structure State where
  /-- R22. -/
  buffer : RawPacket
  /-- R23; its width is CNT_WIDTH, which Safety.Inv says as a bound (log entry 10). -/
  bitsRead : Nat
  /-- R24. -/
  nextBitMask : RawPacket
  /-- R25. -/
  lastBitsRead : Nat
  /-- R26. -/
  pkt : RawPacket
  /-- R27. -/
  ready : Bool
  /-- R28. -/
  dbg : Bool
  /-- R29. -/
  phase : Phase
  /-- R138, R139. -/
  front : FrontEnd
  /-- The model's own: the configuration (R30), which no step writes (log entry 1). -/
  cfg : Config
  /-- The model's own: what the environment has supplied and no step has applied yet (log entry 5). -/
  inputs : List Input
  /-- The model's own: the results of the run's TAKEs, first to last (R18, log entry 6). -/
  takes : List TakeResult
  /-- The model's own: how many free values RESET has drawn (log entry 4). -/
  draws : Nat
  deriving DecidableEq, Repr

/-- No step faults: "There are no model faults: every admitted operation has a meaning in every state" (R108, R105). -/
inductive Fault where
  deriving DecidableEq, Repr

/-- Why a step has no meaning (R108). Every one is safe: the model stops where the chip has no such input. -/
inductive Refusal where
  /-- An instruction without a meaning yet, raised in exec's arm. No arm of this model raises it. Safe. -/
  | notModelled (mnemonic : String)
  /-- A reserved operation word (R61, R108 (a)), raised by applying an input. Safe. -/
  | reservedWord (w : OpWord)
  /-- A configuration value without a meaning (R31, R108 (b)), raised by step. Safe. -/
  | illegalConfiguration (why : ConfigError)
  /-- A change of configuration during a run (R30, R136, R108 (c)), raised by applying an input. Safe. -/
  | configurationChange
  deriving DecidableEq, Repr

/-- The realisation's registers at the start (log entries 13, 14): the synchronisers 0, nothing on its way, and the output
register showing "no packet". DESIGN CHOICE. -/
def FrontEnd.reset (stages : Nat) : FrontEnd where
  sclkSync := List.replicate stages false
  sdataSync := List.replicate stages false
  takePending := none
  takeOut := none

/-- The start of a run under a configuration, with any value in `pkt` (R34, R124). -/
def State.resetWith (c : Config) (p : RawPacket) : State where
  buffer := 0x000000#24
  bitsRead := 0
  nextBitMask := 0x000001#24
  lastBitsRead := 0
  pkt := p
  ready := false
  dbg := false
  phase := .idle
  front := FrontEnd.reset c.syncStages
  cfg := c
  inputs := []
  takes := []
  draws := 0

/-- The machine right after reset (R34). `pkt` is unspecified there: 0 is a DESIGN CHOICE (log entry 3), and so are the OPEN
parameters (log entry 2). -/
def State.reset : State := State.resetWith Config.standard 0x000000#24

end Sys2Proof.Machine
end

