-- ==== Sys2Proof/Machine/Decoder.lean ====
section
/-!
DEFINITION. The Packet Decoder, a pure function from a 24-bit packet to a measurement (R93 to R102), and the
floating-point realisation of its value (R98).
-/

namespace Sys2Proof.Machine

/-- R94: the AND is not followed by a shift. -/
def dataBits (c : Config) (p : RawPacket) : Nat := (p &&& c.dataMask).toNat

/-- R95. -/
def isNegative (c : Config) (p : RawPacket) : Bool := (p &&& c.signMask) != 0#24

/-- R96. -/
def isInch (c : Config) (p : RawPacket) : Bool := (p &&& c.unitMask) != 0#24

/-- R93: counts per unit, 2000 for inch and 100 for mm. -/
def divisor (inch : Bool) : Nat := if inch then 2000 else 100

/-- R93: no state is read or written, and every 24-bit input has a result (R99). -/
def decodePacket (c : Config) (p : RawPacket) : Measurement where
  value :=
    mkRat (if isNegative c p then -(dataBits c p : Int) else (dataBits c p : Int)) (divisor (isInch c p))
  unit := if isInch c p then .inch else .mm
  sign := if isNegative c p then .negative else .positive

/-- The numerator of `num / den / 2 ^ e` as a fraction of naturals. -/
def scaledNum (num : Nat) (e : Int) : Nat := num * 2 ^ (-e).toNat

/-- The denominator of `num / den / 2 ^ e` as a fraction of naturals. -/
def scaledDen (den : Nat) (e : Int) : Nat := den * 2 ^ e.toNat

/-- A first guess of the exponent that makes a `prec`-bit significand of `num / den`: right, or one too high. -/
def firstExponent (prec num den : Nat) : Int :=
  (num.log2 : Int) - (den.log2 : Int) - ((prec : Int) - 1)

/-- The exponent that makes the significand of `num / den` exactly `prec` bits long. -/
def significandExponent (prec num den : Nat) : Int :=
  if scaledNum num (firstExponent prec num den) / scaledDen den (firstExponent prec num den) < 2 ^ (prec - 1) then
    firstExponent prec num den - 1
  else firstExponent prec num den

/-- Round `n / d` to the nearest natural number, ties to even. -/
def roundNearestEven (n d : Nat) : Nat :=
  if d < 2 * (n % d) ∨ (2 * (n % d) = d ∧ n / d % 2 = 1) then n / d + 1 else n / d

/-- Significand and exponent of `num / den` rounded once to `prec` bits, to nearest, ties to even (R98). A significand that
rounds up to `2 ^ prec` is renormalised. -/
def roundToPrecision (prec num den : Nat) : Nat × Int :=
  let e := significandExponent prec num den
  let m := roundNearestEven (scaledNum num e) (scaledDen den e)
  if m = 2 ^ prec then (2 ^ (prec - 1), e + 1) else (m, e)

/-- R98: the correctly rounded exact rational with its sign; zero keeps the sign. A format R98 does not speak of gives a free
value (log entry 15). -/
def floatOf (f : FloatFormat) (m : Measurement) : FloatValue :=
  let r : Nat × Int :=
    match f.precision with
    | none => Config.freeFloat (match f with | .other tag => tag | _ => 0) (m.sign == .negative) m.value.num.natAbs m.value.den
    | some prec => if m.value.num = 0 then (0, 0) else roundToPrecision prec m.value.num.natAbs m.value.den
  { negative := m.sign == .negative, significand := r.1, exponent := r.2 }

end Sys2Proof.Machine
end

