-- ==== Sys2Proof/Machine/Flags.lean ====
section
/-!
DEFINITION. The three status values of the block and the only ways they are written (R27, R28, R29, R39).
-/

namespace Sys2Proof.Machine

/-- Clears `ready`: TAKE's read-and-clear (R48, R90). -/
def clearReady (s : State) : State := { s with ready := false }

/-- Drives the debug level (R28, R83). -/
def setDbg (b : Bool) (s : State) : State := { s with dbg := b }

/-- Records the Framer's classification of this tick (R29, R83). -/
def setPhase (p : Phase) (s : State) : State := { s with phase := p }

end Sys2Proof.Machine
end

