-- ==== Sys2Proof/Machine/Operands.lean ====
section
/-!
DEFINITION. The operand form of EDGE (R62, R68), the data lines' synchronisers and the active clock transition (R10, R138).
-/

namespace Sys2Proof.Machine

/-- The logical bit of a raw level: `b = lvl XOR INVERT` (R68). -/
def logicalBit (c : Config) (lvl : Bool) : Bool := xor lvl c.invert

/-- One clk cycle of a synchroniser: the line's level enters at the front, the oldest stage leaves (R138). -/
def shiftIn (level : Bool) (stages : List Bool) : List Bool := (level :: stages).dropLast

/-- The synchronised level: the oldest stage. -/
def syncLevel (stages : List Bool) : Bool := stages.getLastD false

/-- A change of the synchronised clock in the active direction (R10, R138). -/
def isActiveEdge (t : Transition) (before after : Bool) : Bool :=
  match t with
  | .rising => !before && after
  | .falling => before && !after

end Sys2Proof.Machine
end

