-- ==== Sys2Proof/Machine/Ops.lean ====
section
/-!
DEFINITION. The named operations over the state that the meanings share. The block has no memory (R40) and takes no
exception (R105), so there is no memory operation and no exception entry here.
-/

namespace Sys2Proof.Machine

/-- R69: ORs the current mask into the buffer when the bit is 1. -/
def insertBit (b : Bool) (s : State) : State :=
  { s with buffer := if b then s.buffer ||| s.nextBitMask else s.buffer }

/-- R70: counts an edge, and stays at SAT. -/
def countEdge (s : State) : State :=
  { s with bitsRead := if s.bitsRead < s.cfg.sat then s.bitsRead + 1 else s.bitsRead }

/-- R71: shifts the mask within 24 bits. -/
def shiftMask (s : State) : State := { s with nextBitMask := s.nextBitMask <<< 1 }

/-- R80: the accumulator is empty again. -/
def clearAccumulator (s : State) : State :=
  { s with buffer := 0x000000#24, bitsRead := 0, nextBitMask := 0x000001#24 }

/-- R49: copies the buffer into the latch and sets `ready` in one step, whether or not `ready` was set (R50). -/
def publish (s : State) : State := { s with pkt := s.buffer, ready := true }

/-- R82: the snapshot takes the count as it stands now. -/
def snapshotCount (s : State) : State := { s with lastBitsRead := s.bitsRead }

/-- R18: a TAKE's result joins the observation of the run. -/
def recordTake (r : TakeResult) (s : State) : State := { s with takes := s.takes ++ [r] }

end Sys2Proof.Machine
end

