-- ==== Sys2Proof/Machine/Consumer.lean ====
section
/-!
DEFINITION. The consumer's handoff: TAKE (R90 to R92).
-/

namespace Sys2Proof.Machine

/-- What a TAKE in this state returns (R90, R91). -/
def takeResult (s : State) : TakeResult :=
  if s.ready then some (s.pkt, decodePacket s.cfg s.pkt) else none

/-- R90: the read of the latch and the clear of `ready` are one step, and `pkt` stays. -/
def takeLatch (s : State) : State :=
  recordTake (takeResult s) (if s.ready then clearReady s else s)

/-- TAKE (R90): it always completes (R53). -/
def execTake (s : State) : Host.Outcome State Fault Refusal := .next (takeLatch s)

end Sys2Proof.Machine
end

