-- ==== Sys2Proof/Machine/Framer.lean ====
section
/-!
DEFINITION. The Packet Framer: TICK (R75 to R89).
-/

namespace Sys2Proof.Machine

/-- R77: no bit since the last clear. `lastBitsRead` is not written (C2). -/
def idleTick (s : State) : State := setPhase .idle (setDbg false s)

/-- R76 step 2: `PUBLISH_AT = COUNT` publishes at every tick that sees 24 bits (R79). -/
def publishAtCount (s : State) : State :=
  if s.cfg.publishAt = .count ∧ s.bitsRead = 24 then publish s else s

/-- R78: `PUBLISH_AT = GAP` publishes at the gap with exactly 24 bits. -/
def publishAtGap (s : State) : State :=
  if s.cfg.publishAt = .gap ∧ s.bitsRead = 24 then publish s else s

/-- R80: the gap branch. `dbg` is unchanged (log entry 7). -/
def gapTick (s : State) : State := setPhase .gapDetected (clearAccumulator (publishAtGap s))

/-- R81: bits are still arriving. -/
def inProgressTick (s : State) : State := setPhase .accumulating (setDbg true s)

/-- R76. -/
def frameTick (s : State) : State :=
  if s.bitsRead = 0 then idleTick s
  else
    snapshotCount
      (if s.bitsRead = s.lastBitsRead then gapTick (publishAtCount s) else inProgressTick (publishAtCount s))

/-- TICK (R75): atomic, no failing case. -/
def execTick (s : State) : Host.Outcome State Fault Refusal := .next (frameTick s)

end Sys2Proof.Machine
end

