-- ==== Sys2Proof/Machine/Resetting.lean ====
section
/-!
DEFINITION. RESET (R123).
-/

namespace Sys2Proof.Machine

/-- R123: the eight elements of R20 take their reset values, `pkt` a fresh free value. -/
def resetBlock (s : State) : State :=
  { s with
    buffer := 0x000000#24
    bitsRead := 0
    nextBitMask := 0x000001#24
    lastBitsRead := 0
    pkt := Config.freePacket s.draws
    ready := false
    dbg := false
    phase := .idle
    draws := s.draws + 1 }

/-- RESET (R123). -/
def execReset (s : State) : Host.Outcome State Fault Refusal := .next (resetBlock s)

end Sys2Proof.Machine
end

