-- ==== Sys2Proof/Machine/Sampler.lean ====
section
/-!
DEFINITION. The Bit Sampler: EDGE (R67 to R74).
-/

namespace Sys2Proof.Machine

/-- R67, in the order of its pseudocode: insert with the mask before the shift (R69), count (R70), shift (R71). -/
def recordBit (lvl : Bool) (s : State) : State :=
  shiftMask (countEdge (insertBit (logicalBit s.cfg lvl) s))

/-- EDGE(lvl) (R67): no failing case. -/
def execEdge (lvl : Bool) (s : State) : Host.Outcome State Fault Refusal := .next (recordBit lvl s)

end Sys2Proof.Machine
end

