-- ==== Sys2Proof/Machine/Run.lean ====
section
/-!
DEFINITION. A run of operations (R18): applied one at a time, in the order given (R6, R52).
-/

namespace Sys2Proof.Machine

/-- The operations applied in order; it would stop at the first that does not complete. -/
def runOps : List Instr → State → Host.Outcome State Fault Refusal
  | [], s => .next s
  | i :: is, s =>
    match exec i s with
    | .next t => runOps is t
    | .fault r => .fault r
    | .refused r => .refused r

end Sys2Proof.Machine
end

