-- ==== Sys2Proof/Machine/Cycle.lean ====
section
/-!
DEFINITION. One clk cycle of the cycle-level realisation (R138, R139), with coincident events in the order of R112.
-/

namespace Sys2Proof.Machine

/-- The events that fall in one cycle, at most one of each kind (R138). -/
structure Coincident where
  reset : Bool
  edge : Option Bool
  tick : Bool
  take : Bool
  deriving DecidableEq, Repr

/-- R112: RESET, EDGE, TICK, TAKE, and a RESET discards the other events of its cycle. -/
def coincidentOrder (c : Coincident) : List Instr :=
  if c.reset then [.reset]
  else
    c.edge.toList.map Instr.edge ++ ((if c.tick then [Instr.tick] else []) ++ (if c.take then [Instr.take] else []))

/-- R138: both lines enter their synchronisers. -/
def shiftLines (p : Pins) (s : State) : State :=
  { s with front := { s.front with
      sclkSync := shiftIn p.sclk s.front.sclkSync, sdataSync := shiftIn p.sdata s.front.sdataSync } }

/-- R138: an active edge is a change of the synchronised clock between two cycles in the active direction, and its level is
the synchronised data level of the same cycle. `before` and `after` are the states around the shift of the lines. -/
def detectEdge (before after : State) : Option Bool :=
  if isActiveEdge after.cfg.activeEdge (syncLevel before.front.sclkSync) (syncLevel after.front.sclkSync) then
    some (syncLevel after.front.sdataSync)
  else none

/-- R138: the cycle's events. The timer's and the consumer's strobes are R138's. The spec does not say how a reset assertion
(R63) is detected: that each cycle with the reset line at 1 has one RESET, which discards its other events, is a DESIGN CHOICE (log
entry 19). -/
def cycleEvents (p : Pins) (s : State) : Coincident where
  reset := p.reset
  edge := detectEdge s (shiftLines p s)
  tick := p.tick
  take := p.take

/-- R139: a result on its way reaches the output. -/
def deliverPending (s : State) : State :=
  { s with front := { s.front with
      takeOut := s.front.takePending.getD s.front.takeOut, takePending := none } }

/-- R139: the result of this cycle's TAKE goes to the output at once (TAKE_LATENCY 0) or in the next cycle (1). -/
def presentTake (r : TakeResult) (s : State) : State :=
  if s.cfg.takeLatency = 0 then { s with front := { s.front with takeOut := r } }
  else { s with front := { s.front with takePending := some r } }

/-- R139: if the cycle's operations end in a TAKE, its result is the last of the observation. -/
def presentResult (ops : List Instr) (s : State) : State :=
  if Instr.take ∈ ops then
    match s.takes.getLast? with
    | some r => presentTake r s
    | none => s
  else s

/-- One clk cycle. Parameters of the realisation that have no meaning are refused (log entry 12). -/
def execCycle (p : Pins) (s : State) : Host.Outcome State Fault Refusal :=
  match s.cfg.checkCycle with
  | some why => .refused (.illegalConfiguration why)
  | none =>
    match runOps (coincidentOrder (cycleEvents p s)) (deliverPending (shiftLines p s)) with
    | .next t => .next (presentResult (coincidentOrder (cycleEvents p s)) t)
    | .fault r => .fault r
    | .refused r => .refused r

end Sys2Proof.Machine
end

