-- ==== Sys2Proof/Machine/Inputs.lean ====
section
/-!
DEFINITION. What one supplied input does (R66, R108, R138).
-/

namespace Sys2Proof.Machine

/-- R66: the word's operation, or the refusal of R108 (a). -/
def applyWord (w : OpWord) (s : State) : Host.Outcome State Fault Refusal :=
  match decode w with
  | .ok i => exec i s
  | .error (.reserved w) => .refused (.reservedWord w)

/-- R30, R108 (c): another configuration is refused; the one in force is no change. -/
def applyConfigure (c : Config) (s : State) : Host.Outcome State Fault Refusal :=
  if c = s.cfg then .next s else .refused .configurationChange

/-- One input. -/
def applyInput (i : Input) (s : State) : Host.Outcome State Fault Refusal :=
  match i with
  | .word w => applyWord w s
  | .cycle p => execCycle p s
  | .configure c => applyConfigure c s

/-- R108 (b): a configuration without a meaning is refused before anything else. R145: with no input left the run has ended
and nothing changes. Otherwise the oldest input is applied, exactly once. -/
def applyNext (s : State) : Host.Outcome State Fault Refusal :=
  match s.cfg.check with
  | some why => .refused (.illegalConfiguration why)
  | none =>
    match s.inputs with
    | [] => .next s
    | i :: rest => applyInput i { s with inputs := rest }

/-- The word numbered `w` stands first among the supplied inputs; a number that is no operation word places nothing (log
entry 8). -/
def placeWord (s : State) (nbits w : Nat) : State :=
  match tableWord nbits w with
  | some o => { s with inputs := .word o :: s.inputs }
  | none => s

end Sys2Proof.Machine
end

