-- ==== Sys2Proof/Machine/Step.lean ====
section
/-!
DEFINITION. One step: the next supplied input is applied.
-/

namespace Sys2Proof.Machine

def step (s : State) : Host.Outcome State Fault Refusal := applyNext s

def State.withFetchWord (s : State) (nbits w : Nat) : State := placeWord s nbits w

end Sys2Proof.Machine
end

