-- ==== Sys2Proof/Machine/Outputs.lean ====
section
/-!
DEFINITION. What the block brings out (R110, R119, R120, R139) and the floating-point form of the held result (R98).
-/

namespace Sys2Proof.Machine

/-- R110: `ready` as a level. -/
def readyLevel (s : State) : Bool := s.ready

/-- R119, R120: the debug level and the phase's code, brought out when DEBUG_PRESENT is true (R28). -/
def debugOutput (s : State) : Option (Bool × BitVec 2) :=
  if s.cfg.debugPresent then some (s.dbg, s.phase.code) else none

/-- R139: the TAKE result held at the output. -/
def takeOutput (s : State) : TakeResult := s.front.takeOut

/-- R15, R98: a TAKE result's value in the configured binary format. -/
def resultFloat (c : Config) (r : TakeResult) : Option FloatValue :=
  r.map fun pm => floatOf c.floatFormat pm.2

/-- R121: the block is idle exactly when no bit is held and no packet waits. -/
def isIdle (s : State) : Bool := s.bitsRead == 0 && !s.ready

end Sys2Proof.Machine
end

