-- ==== Sys2Proof/Machine/Text.lean ====
section
/-!
DEFINITION. The textual syntax of a run (R64) and the pseudo-operations xN, SEND and GAP (R65). A text is a list of
characters. Details the rules leave open: log entry 18.
-/

namespace Sys2Proof.Machine

/-- `GAP` (R65). -/
def gapOps : List Instr := [.tick, .tick]

/-- Eight EDGEs of `SEND`, bits `lo` to `lo + 7` of the packet, and the TICK after them (R65). -/
def sendOctet (invert : Bool) (v : RawPacket) (lo : Nat) : List Instr :=
  (List.range 8).map (fun i => Instr.edge (xor (v.getLsbD (lo + i)) invert)) ++ [.tick]

/-- `SEND v` (R65): 24 EDGEs, bit 0 first, and one TICK after the 8th, the 16th and the 24th. -/
def sendOps (invert : Bool) (v : RawPacket) : List Instr :=
  sendOctet invert v 0 ++ sendOctet invert v 8 ++ sendOctet invert v 16

/-- The text of one operation (R64). -/
def opText : Instr → List Char
  | .edge false => ['E', 'D', 'G', 'E', ' ', '0']
  | .edge true => ['E', 'D', 'G', 'E', ' ', '1']
  | .tick => ['T', 'I', 'C', 'K']
  | .take => ['T', 'A', 'K', 'E']
  | .reset => ['R', 'E', 'S', 'E', 'T']

/-- A run as text, one operation per line (R64). -/
def runText : List Instr → List Char
  | [] => []
  | i :: is => opText i ++ '\n' :: runText is

/-- The text of a line before its comment (R64: "Text after `;` to the end of the line is a comment"). -/
def dropComment : List Char → List Char
  | [] => []
  | c :: cs => if c = ';' then [] else c :: dropComment cs

/-- The text cut at every character that `sep` names: always at least one piece. -/
def cutAt (sep : Char → Bool) : List Char → List (List Char)
  | [] => [[]]
  | c :: cs =>
    if sep c then [] :: cutAt sep cs
    else
      match cutAt sep cs with
      | [] => [[c]]
      | piece :: pieces => (c :: piece) :: pieces

/-- A blank, a tab or a carriage return separates words. -/
def isBlank (c : Char) : Bool := c = ' ' || c = '\t' || c = '\r'

/-- The words of a line. -/
def lineWords (line : List Char) : List (List Char) :=
  (cutAt isBlank (dropComment line)).filter fun w => w ≠ []

/-- A decimal digit's value. -/
def decDigit (c : Char) : Option Nat :=
  if 48 ≤ c.toNat ∧ c.toNat ≤ 57 then some (c.toNat - 48) else none

/-- A hexadecimal digit's value, in either case. -/
def hexDigit (c : Char) : Option Nat :=
  if 48 ≤ c.toNat ∧ c.toNat ≤ 57 then some (c.toNat - 48)
  else if 65 ≤ c.toNat ∧ c.toNat ≤ 70 then some (c.toNat - 55)
  else if 97 ≤ c.toNat ∧ c.toNat ≤ 102 then some (c.toNat - 87)
  else none

/-- A number in base `base` from its digits, most significant first. -/
def digitsNat (base : Nat) (digit : Char → Option Nat) (acc : Nat) : List Char → Option Nat
  | [] => some acc
  | c :: cs =>
    match digit c with
    | none => none
    | some d => digitsNat base digit (acc * base + d) cs

/-- `N` of `xN`, at least 1 (R65). -/
def parseCount : List Char → Option Nat
  | 'x' :: c :: cs =>
    match digitsNat 10 decDigit 0 (c :: cs) with
    | some n => if n = 0 then none else some n
    | none => none
  | _ => none

/-- `<hex24>` of SEND, written `0x...` (R16, R65). -/
def parseHex24 : List Char → Option RawPacket
  | '0' :: 'x' :: c :: cs =>
    match digitsNat 16 hexDigit 0 (c :: cs) with
    | some n => if n < 2 ^ 24 then some (BitVec.ofNat 24 n) else none
    | none => none
  | _ => none

/-- An operation from its words, with the words after it (R64). -/
def parseOp : List (List Char) → Option (Instr × List (List Char))
  | w :: ws =>
    if w = ['E', 'D', 'G', 'E'] then
      match ws with
      | ['0'] :: rest => some (.edge false, rest)
      | ['1'] :: rest => some (.edge true, rest)
      | _ => none
    else if w = ['T', 'I', 'C', 'K'] then some (.tick, ws)
    else if w = ['T', 'A', 'K', 'E'] then some (.take, ws)
    else if w = ['R', 'E', 'S', 'E', 'T'] then some (.reset, ws)
    else none
  | [] => none

/-- The operations of one line's words: none, one, `<op> xN`, SEND or GAP (R64, R65); `none` if the line spells no operation. -/
def parseWords (invert : Bool) (ws : List (List Char)) : Option (List Instr) :=
  match ws with
  | [] => some []
  | w :: rest =>
    if w = ['G', 'A', 'P'] then (if rest = [] then some gapOps else none)
    else if w = ['S', 'E', 'N', 'D'] then
      match rest with
      | [h] => (parseHex24 h).map (sendOps invert)
      | _ => none
    else
      match parseOp (w :: rest) with
      | some (i, []) => some [i]
      | some (i, [n]) => (parseCount n).map fun k => List.replicate k i
      | some (_, _ :: _ :: _) => none
      | none => none

/-- The operations of the lines in order. -/
def parseLines (invert : Bool) : List (List Char) → Option (List Instr)
  | [] => some []
  | l :: ls =>
    match parseWords invert (lineWords l) with
    | none => none
    | some ops =>
      match parseLines invert ls with
      | none => none
      | some more => some (ops ++ more)

/-- A run read from its text (R64, R65). -/
def parseRun (invert : Bool) (text : List Char) : Option (List Instr) :=
  parseLines invert (cutAt (fun c => c = '\n') text)

end Sys2Proof.Machine
end

