-- ==== Sys2Proof/Safety.lean ====
section
/-!
DEFINITION. The terms in which claims about runs are written: the invariants of R35 to R37, what a run observes (R18), the
envelope in the order of operations and in time (R128), and transmissions.
-/

namespace Sys2Proof.Safety

open Sys2Proof.Machine

/-! ### Invariants of the state (R35 to R37) -/

/-- R35. -/
def MaskInv (s : State) : Prop :=
  s.nextBitMask = if s.bitsRead < 24 then 1#24 <<< s.bitsRead else 0#24

/-- R36. -/
def BufferInv (s : State) : Prop :=
  ∀ i, min s.bitsRead 24 ≤ i → i ≤ 23 → s.buffer.getLsbD i = false

/-- R37. -/
def SnapshotInv (s : State) : Prop := s.lastBitsRead ≤ s.bitsRead

/-- R23, R25: the count fits CNT_WIDTH bits. -/
def CountInv (s : State) : Prop := s.bitsRead ≤ s.cfg.sat

/-- R138: each synchroniser has SYNC_STAGES stages. -/
def FrontInv (s : State) : Prop :=
  s.front.sclkSync.length = s.cfg.syncStages ∧ s.front.sdataSync.length = s.cfg.syncStages

/-- What every reachable state of a legal run satisfies. -/
structure Inv (s : State) : Prop where
  mask : MaskInv s
  buffer : BufferInv s
  snapshot : SnapshotInv s
  count : CountInv s
  front : FrontInv s

/-- R85: "empty" means `buffer = 0`, `bitsRead = 0`, `nextBitMask = 1`. -/
def EmptyAccumulator (s : State) : Prop :=
  s.buffer = 0x000000#24 ∧ s.bitsRead = 0 ∧ s.nextBitMask = 0x000001#24

/-- The start of R141: "an empty accumulator and `lastBitsRead = 0`". -/
def AtRest (s : State) : Prop := EmptyAccumulator s ∧ s.lastBitsRead = 0

/-- A TICK applied to this state publishes (R78, R79): 24 bits, and under GAP also no EDGE since the last TICK. -/
abbrev PublishesAt (s : State) : Prop :=
  s.bitsRead = 24 ∧ (s.cfg.publishAt = .count ∨ s.lastBitsRead = 24)

/-! ### Runs (R18) -/

/-- The raw levels of a run's EDGEs, first to last. -/
def levels : List Instr → List Bool
  | [] => []
  | .edge lvl :: is => lvl :: levels is
  | .tick :: is => levels is
  | .take :: is => levels is
  | .reset :: is => levels is

/-- How many TICKs a run has. -/
def tickCount (ops : List Instr) : Nat := ops.count .tick

/-- The number whose bits are the list, least significant first (R43). -/
def natOfBits : List Bool → Nat
  | [] => 0
  | b :: bs => b.toNat + 2 * natOfBits bs

/-- The packet that raw levels spell under a polarity: bit `i` is `lvl_{i+1} XOR INVERT` (R43, R68, R141). -/
def packetOf (invert : Bool) (lvls : List Bool) : RawPacket :=
  BitVec.ofNat 24 (natOfBits (lvls.map fun lvl => xor lvl invert))

/-- What the consumer got, in order: the results that are a packet. -/
def delivered (rs : List TakeResult) : List (RawPacket × Measurement) := rs.filterMap id

/-- The environment's words for a run. -/
def wordsOf (ops : List Instr) : List Input := ops.map fun i => Input.word (encode i)

/-- R18: "the sequence of results of its TAKE operations, together with the final state". A refused run has none (R108). -/
def observation (o : Host.Outcome State Fault Refusal) : Option (List TakeResult × State) :=
  match o with
  | .next t => some (t.takes, t)
  | .fault _ => none
  | .refused _ => none

/-- The state a run ends in, for tests and witnesses. -/
def finalState (o : Host.Outcome State Fault Refusal) : Option State :=
  match o with
  | .next t => some t
  | .fault _ => none
  | .refused _ => none

/-- A safe run: a legal configuration, no reserved word, no change of configuration, and parameters of the realisation that
have a meaning where a clk cycle is supplied (R108). -/
def Admitted (s : State) : Prop :=
  s.cfg.check = none ∧
    ∀ i ∈ s.inputs,
      match i with
      | .word w => ∃ op, decode w = .ok op
      | .cycle _ => s.cfg.checkCycle = none
      | .configure c => c = s.cfg

/-! ### Floating-point numbers (R98) -/

/-- The magnitude `significand * 2 ^ exponent` as an exact rational. -/
def floatMagnitude (x : FloatValue) : Rat := (x.significand : Rat) * 2 ^ x.exponent

/-! ### The envelope in the order of operations (R128) -/

/-- A run in which the device sends nothing and nobody resets: TICKs and TAKEs only. -/
def Quiet (ops : List Instr) : Prop := ∀ i ∈ ops, i = .tick ∨ i = .take

/-- ENV-INTRA for the operations from `e_1` to `e_m`: between two TICKs with no TICK between them lies an EDGE. -/
def EnvIntra (body : List Instr) : Prop :=
  ∀ before between after : List Instr,
    body = before ++ Instr.tick :: (between ++ Instr.tick :: after) → Instr.tick ∉ between →
      ∃ lvl, Instr.edge lvl ∈ between

/-- The operations from a transmission's first EDGE to its last, under ENV-INTRA and with no RESET (R128, R141). -/
structure TransmissionBody (body : List Instr) : Prop where
  firstEdge : ∃ lvl rest, body = Instr.edge lvl :: rest
  lastEdge : ∃ lvl rest, body = rest ++ [Instr.edge lvl]
  noReset : Instr.reset ∉ body
  intra : EnvIntra body

/-- ENV-GAP for the operations between two transmissions: at least two TICKs, and no EDGE. -/
def TransmissionGap (gap : List Instr) : Prop := Quiet gap ∧ 2 ≤ tickCount gap

/-- One transmission and the operations up to the next: TICKs and TAKEs, the first TICK `gapBefore` after the last EDGE, the
second TICK `gapBetween` after that, and then `gapAfter`. -/
structure Transmission where
  body : List Instr
  gapBefore : List Instr
  gapBetween : List Instr
  gapAfter : List Instr
  deriving DecidableEq, Repr

/-- The transmission's operations in order. -/
def Transmission.ops (t : Transmission) : List Instr :=
  t.body ++ (t.gapBefore ++ Instr.tick :: (t.gapBetween ++ Instr.tick :: t.gapAfter))

/-- A transmission under the envelope, of at most `sat` EDGEs (R141). -/
structure Transmission.Framed (sat : Nat) (t : Transmission) : Prop where
  body : TransmissionBody t.body
  before : ∀ i ∈ t.gapBefore, i = Instr.take
  between : ∀ i ∈ t.gapBetween, i = Instr.take
  after : Quiet t.gapAfter
  bounded : (levels t.body).length ≤ sat

/-- What a transmission publishes: its packet when it has exactly 24 EDGEs, else nothing (R141, R142). -/
def Transmission.published (invert : Bool) (t : Transmission) : Option RawPacket :=
  if (levels t.body).length = 24 then some (packetOf invert (levels t.body)) else none

/-! ### The lines of the realisation (R63, R138) -/

/-- The cycles that carry line levels (clock, data) and no strobe. -/
def lineCycles (samples : List (Bool × Bool)) : List Input :=
  samples.map fun x => Input.cycle { sclk := x.1, sdata := x.2, tick := false, take := false, reset := false }

/-- One EDGE per transition of the clock in the active direction, with the data level at that sample (R63). -/
def lineOps (active : Transition) (before : Bool) : List (Bool × Bool) → List Instr
  | [] => []
  | x :: rest => (if isActiveEdge active before x.1 then [Instr.edge x.2] else []) ++ lineOps active x.1 rest

/-! ### Text (R64) -/

/-- One line of a run's text: an operation or none, then a comment or none. -/
def lineText (l : Option Instr × Option (List Char)) : List Char :=
  (match l.1 with | some i => opText i | none => []) ++ (match l.2 with | some c => ';' :: c | none => [])

/-! ### The envelope in time (R128, R129) -/

/-- An operation with the time at which it happens. -/
abbrev Timed := Nat × Instr

/-- Times do not fall, and at one time an EDGE stands before a TICK (R112). -/
def TimeOrdered (tr : List Timed) : Prop :=
  tr.Pairwise fun a b => a.1 < b.1 ∨ (a.1 = b.1 ∧ ¬ (a.2 = Instr.tick ∧ ∃ lvl, b.2 = Instr.edge lvl))

/-- Two EDGEs with no EDGE between them are at most `gap` apart. -/
def EdgesWithin (gap : Nat) (tr : List Timed) : Prop :=
  ∀ (before between after : List Timed) (t t' : Nat) (lvl lvl' : Bool),
    tr = before ++ (t, Instr.edge lvl) :: (between ++ (t', Instr.edge lvl') :: after) →
      (∀ x ∈ between, ∀ l, x.2 ≠ Instr.edge l) → t' ≤ t + gap

/-- The timer is exactly periodic: two TICKs with no TICK between them are `period` apart. -/
def TicksEvery (period : Nat) (tr : List Timed) : Prop :=
  ∀ (before between after : List Timed) (t t' : Nat),
    tr = before ++ (t, Instr.tick) :: (between ++ (t', Instr.tick) :: after) →
      (∀ x ∈ between, x.2 ≠ Instr.tick) → t' = t + period

/-- The operations of a timed run, in order. -/
def untimed (tr : List Timed) : List Instr := tr.map Prod.snd

/-- The time of the `k`-th TICK of an exactly periodic timer. -/
def tickTime (start period k : Nat) : Nat := start + k * period

end Sys2Proof.Safety
end

