-- ==== Sys2Proof/Certificates/Slice0/Obligations.lean ====
section
/-!
DEFINITION. The statements about the model, for the provers. Each docstring names the rule it formalises. There is no memory
in this block (R40), so no statement has a memory clause; a statement whose conclusion is `exec i s = .next { s with ... }`
also says that every field it does not name is unchanged.
-/

open Sys2Proof Sys2Proof.Machine Sys2Proof.Safety

/-! ### EDGE -/

/-- R67 to R70: EDGE (word `0b001d`, `d = lvl`) completes in every state, and writes exactly `buffer`, `bitsRead` and
`nextBitMask`. -/
def Obligations.EdgeRecordsOneBit : Prop :=
  ∀ (lvl : Bool) (s : State),
    decode (0b001#3 ++ BitVec.ofBool lvl) = .ok (.edge lvl) ∧ exec (.edge lvl) s = .next { s with
      buffer := if xor lvl s.cfg.invert = true then s.buffer ||| s.nextBitMask else s.buffer
      bitsRead := if s.bitsRead < 2 ^ s.cfg.cntWidth - 1 then s.bitsRead + 1 else s.bitsRead
      nextBitMask := s.nextBitMask <<< 1 }

/-- R43: the `k`-th EDGE of a burst supplies bit `k - 1`; the count and the mask follow the number of EDGEs, and nothing else
changes. -/
def Obligations.KthEdgeSuppliesItsBit : Prop :=
  ∀ (s : State) (lvls : List Bool), EmptyAccumulator s →
    ∃ t, runOps (lvls.map Instr.edge) s = .next t ∧
      (∀ k, k < 24 → t.buffer.getLsbD k = (lvls.map fun lvl => xor lvl s.cfg.invert).getD k false) ∧
      t.bitsRead = min lvls.length s.cfg.sat ∧
      t.nextBitMask = (if lvls.length < 24 then 1#24 <<< lvls.length else 0#24) ∧
      t = { s with buffer := t.buffer, bitsRead := t.bitsRead, nextBitMask := t.nextBitMask }

/-- The spec's derivation R73 (e) from R68: complementing both the level and INVERT changes nothing else. -/
def Obligations.EdgePolarityIsOneExchange : Prop :=
  ∀ (lvl : Bool) (s : State),
    ∃ t, exec (.edge lvl) s = .next t ∧
      exec (.edge (!lvl)) { s with cfg := { s.cfg with invert := !s.cfg.invert } } =
        .next { t with cfg := { s.cfg with invert := !s.cfg.invert } }

/-- The spec's derivation R73 (c), (d) from R69 to R71: from the 25th EDGE on only the count moves, and at SAT nothing does. -/
def Obligations.ExcessEdgesAreOnlyCounted : Prop :=
  ∀ (lvl : Bool) (s : State), MaskInv s → 24 ≤ s.bitsRead →
    (s.bitsRead < s.cfg.sat → exec (.edge lvl) s = .next { s with bitsRead := s.bitsRead + 1 }) ∧
      (s.bitsRead = s.cfg.sat → exec (.edge lvl) s = .next s)

/-! ### TICK -/

/-- R77: an idle TICK changes only `dbg` and `phase`. -/
def Obligations.IdleTickWritesOnlyStatus : Prop :=
  ∀ s : State, s.bitsRead = 0 → exec .tick s = .next { s with dbg := false, phase := .idle }

/-- R81: an in-progress TICK leaves the accumulator alone; under COUNT with 24 bits it also publishes (R14). -/
def Obligations.InProgressTickKeepsAccumulator : Prop :=
  ∀ s : State, s.bitsRead ≠ 0 → s.bitsRead ≠ s.lastBitsRead →
    exec .tick s = .next { s with
      lastBitsRead := s.bitsRead
      pkt := if s.cfg.publishAt = .count ∧ s.bitsRead = 24 then s.buffer else s.pkt
      ready := if s.cfg.publishAt = .count ∧ s.bitsRead = 24 then true else s.ready
      dbg := true
      phase := .accumulating }

/-- R84: a gap with a count other than 24 clears the accumulator and publishes nothing. `dbg` is left free (R83, U3). -/
def Obligations.GapTickDropsOtherCounts : Prop :=
  ∀ s : State, s.bitsRead ≠ 0 → s.bitsRead = s.lastBitsRead → s.bitsRead ≠ 24 →
    ∃ d : Bool, exec .tick s = .next { s with
      buffer := 0x000000#24
      bitsRead := 0
      nextBitMask := 0x000001#24
      lastBitsRead := 0
      dbg := d
      phase := .gapDetected }

/-- R49, R78, R80: a gap with exactly 24 bits writes `pkt` and `ready` together, whatever `ready` was (R50), and clears the
accumulator. `dbg` is left free (R83, U3). -/
def Obligations.GapTickPublishesTwentyFour : Prop :=
  ∀ s : State, s.bitsRead = 24 → s.lastBitsRead = 24 →
    ∃ d : Bool, exec .tick s = .next { s with
      buffer := 0x000000#24
      bitsRead := 0
      nextBitMask := 0x000001#24
      lastBitsRead := 0
      pkt := s.buffer
      ready := true
      dbg := d
      phase := .gapDetected }

/-- R14: GAP publishes only at the tick that detects the gap with exactly 24 bits, COUNT at every tick that sees 24; GAP is the
default. -/
def Obligations.PublicationPointFollowsPolicy : Prop :=
  Config.standard.publishAt = .gap ∧
    ∀ s : State, ∃ t, exec .tick s = .next t ∧
      (s.cfg.publishAt = .gap →
        if s.bitsRead = 24 ∧ s.lastBitsRead = 24 then t.pkt = s.buffer ∧ t.ready = true
        else t.pkt = s.pkt ∧ t.ready = s.ready) ∧
      (s.cfg.publishAt = .count →
        if s.bitsRead = 24 then t.pkt = s.buffer ∧ t.ready = true else t.pkt = s.pkt ∧ t.ready = s.ready)

/-- R78: under GAP a TICK publishes exactly at a gap with 24 bits, and two publications have at least 24 EDGEs between them: at
most one publication per burst. -/
def Obligations.AtMostOnePublicationPerBurst : Prop :=
  ∀ s : State, s.cfg.publishAt = .gap →
    (∃ t, exec .tick s = .next t ∧
      if s.bitsRead ≠ 0 ∧ s.bitsRead = s.lastBitsRead ∧ s.bitsRead = 24 then t.pkt = s.buffer ∧ t.ready = true
      else t.pkt = s.pkt ∧ t.ready = s.ready) ∧
      ∀ (ops : List Instr) (u : State), PublishesAt s → runOps (.tick :: ops) s = .next u → PublishesAt u →
        24 ≤ (levels ops).length

/-- R82: after every non-idle TICK the snapshot is the count as the branch left it. -/
def Obligations.SnapshotFollowsTheBranch : Prop :=
  ∀ s : State, s.bitsRead ≠ 0 →
    ∃ t, exec .tick s = .next t ∧ t.lastBitsRead = t.bitsRead ∧
      (s.bitsRead = s.lastBitsRead → t.lastBitsRead = 0) ∧
      (s.bitsRead ≠ s.lastBitsRead → t.lastBitsRead = s.bitsRead)

/-- The status after a TICK (R83). That a gap TICK keeps `dbg` is the spec's own choice, "its value after a gap TICK is not given
by the source and a claim should not rest on it" (R83, D15; log entry 7). -/
def Obligations.TickDrivesStatusOutputs : Prop :=
  ∀ s : State, ∃ t, exec .tick s = .next t ∧
    (s.bitsRead = 0 → t.phase = .idle ∧ t.dbg = false) ∧
    (s.bitsRead ≠ 0 → s.bitsRead ≠ s.lastBitsRead → t.phase = .accumulating ∧ t.dbg = true) ∧
    (s.bitsRead ≠ 0 → s.bitsRead = s.lastBitsRead → t.phase = .gapDetected ∧ t.dbg = s.dbg)

/-! ### TAKE -/

/-- R90, R91: TAKE (word `0b0110`) completes in every state; it returns the packet with its measurement and clears `ready`, or returns none and
changes nothing of the block. The result joins the observation (R18, log entry 6). -/
def Obligations.TakeReadsAndClears : Prop :=
  decode 0b0110#4 = .ok .take ∧
    ∀ s : State,
      (s.ready = true →
        exec .take s = .next { s with
          ready := false, takes := s.takes ++ [some (s.pkt, decodePacket s.cfg s.pkt)] }) ∧
        (s.ready = false → exec .take s = .next { s with takes := s.takes ++ [none] })

/-- R48: a TAKE clears `ready`, TAKEs with no publication between them return the packet at most once, and a TAKE that finds
`ready` clear has no side effect. -/
def Obligations.UnrepublishedPacketIsTakenOnce : Prop :=
  (∀ (s t : State) (ops : List Instr),
    (∀ (pre post : List Instr) (u : State), ops = pre ++ Instr.tick :: post → runOps (.take :: pre) s = .next u →
      ¬ PublishesAt u) →
    runOps (.take :: ops) s = .next t →
      t.ready = false ∧
        t.takes = s.takes ++
          (if s.ready = true then some (s.pkt, decodePacket s.cfg s.pkt) else none) ::
            List.replicate (ops.count .take) none) ∧
    ∀ s : State, s.ready = false → ∃ t, exec .take s = .next t ∧ t = { s with takes := t.takes }

/-- R32 ("the consumer must never touch this triple directly"): leaving every TAKE out of a run changes nothing but `ready` and the
observation. -/
def Obligations.ConsumerCannotDisturbFraming : Prop :=
  ∀ (ops : List Instr) (s : State),
    ∃ t u, runOps ops s = .next t ∧ runOps (ops.filter fun i => i ≠ .take) s = .next u ∧
      t = { u with ready := t.ready, takes := t.takes }

/-! ### RESET and the start of a run -/

/-- RESET (word `0b1000`) completes in every state; `pkt` takes some value (a fresh free value, log entry 4) and the rest of the block
the values R123 gives; a TAKE right after it returns none. The model's choice, beyond R123: the synchronisers and the TAKE output of
the realisation (field `front`) stay (log entries 13, 14), and the draw counter goes on (log entry 4). -/
def Obligations.ResetRestoresTheBlock : Prop :=
  decode 0b1000#4 = .ok .reset ∧ ∀ s : State,
    (∃ p : RawPacket, exec .reset s = .next { s with
      buffer := 0x000000#24
      bitsRead := 0
      nextBitMask := 0x000001#24
      lastBitsRead := 0
      pkt := p
      ready := false
      dbg := false
      phase := .idle
      draws := s.draws + 1 }) ∧
      ∃ t, runOps [.reset, .take] s = .next t ∧ t.takes = s.takes ++ [none]

/-- R34, R124: a run starts in the table's state, under every configuration and with any value in `pkt`. -/
def Obligations.RunStartsInTheResetState : Prop :=
  (∃ c p, State.reset = State.resetWith c p) ∧
    ∀ (c : Config) (p : RawPacket),
      (State.resetWith c p).buffer = 0x000000#24 ∧ (State.resetWith c p).bitsRead = 0 ∧
        (State.resetWith c p).nextBitMask = 0x000001#24 ∧ (State.resetWith c p).lastBitsRead = 0 ∧
        (State.resetWith c p).ready = false ∧ (State.resetWith c p).dbg = false ∧
        (State.resetWith c p).phase = .idle ∧ (State.resetWith c p).phase.code = 0b00#2 ∧
        (State.resetWith c p).takes = []

/-! ### The packet decoder -/

/-- R93, R97: the value is the exact rational, under every masks. -/
def Obligations.DecoderValueIsExactRational : Prop :=
  ∀ (c : Config) (p : RawPacket),
    (decodePacket c p).value =
        (if p &&& c.signMask ≠ 0#24 then -1 else 1) * ((p &&& c.dataMask).toNat : Rat) /
          (if p &&& c.unitMask ≠ 0#24 then 2000 else 100) ∧
      (decodePacket c p).unit = (if p &&& c.unitMask ≠ 0#24 then .inch else .mm) ∧
      (decodePacket c p).sign = (if p &&& c.signMask ≠ 0#24 then .negative else .positive)

/-- R94 to R96: with the default masks the fields are bits 19..0, bit 20 and bit 23; a data mask keeps bit positions. -/
def Obligations.DefaultMasksSelectFields : Prop :=
  (∀ (c : Config) (p : RawPacket) (i : Nat),
    (dataBits c p).testBit i = (p.getLsbD i && c.dataMask.getLsbD i)) ∧
    ∀ (c : Config) (p : RawPacket), c.defaultMasks = true →
      dataBits c p = p.toNat % 2 ^ 20 ∧ dataBits c p ≤ 1048575 ∧
        ((decodePacket c p).sign = .negative ↔ p.getLsbD 20 = true) ∧
        ((decodePacket c p).unit = .inch ↔ p.getLsbD 23 = true)

/-- R99: bits covered by no mask are ignored. -/
def Obligations.DecoderIgnoresUncoveredBits : Prop :=
  ∀ (c : Config) (p q : RawPacket),
    p &&& (c.dataMask ||| c.signMask ||| c.unitMask) = q &&& (c.dataMask ||| c.signMask ||| c.unitMask) →
      decodePacket c p = decodePacket c q

/-- R98 (PRESUMED, IEEE 754, G1; log entry 15): in binary32, binary64 and binary128 the significand is normalised, no number of
that precision is nearer to the exact value, a tie goes to an even significand, the exponent stays in binary32's range, and
zero keeps the sign. -/
def Obligations.FloatIsCorrectlyRounded : Prop :=
  ∀ (f : FloatFormat) (prec : Nat) (c : Config) (p : RawPacket), f.precision = some prec →
    (floatOf f (decodePacket c p)).negative = (isNegative c p) ∧
      (dataBits c p = 0 → (floatOf f (decodePacket c p)).significand = 0) ∧
      (dataBits c p ≠ 0 →
        2 ^ (prec - 1) ≤ (floatOf f (decodePacket c p)).significand ∧
          (floatOf f (decodePacket c p)).significand < 2 ^ prec ∧
          -126 ≤ (floatOf f (decodePacket c p)).exponent + ((prec : Int) - 1) ∧
          (floatOf f (decodePacket c p)).exponent + ((prec : Int) - 1) ≤ 127 ∧
          ∀ (g : Nat) (e : Int), g < 2 ^ prec →
            abs (floatMagnitude (floatOf f (decodePacket c p)) - abs (decodePacket c p).value) ≤
                abs ((g : Rat) * 2 ^ e - abs (decodePacket c p).value) ∧
              (abs (floatMagnitude (floatOf f (decodePacket c p)) - abs (decodePacket c p).value) =
                  abs ((g : Rat) * 2 ^ e - abs (decodePacket c p).value) →
                (g : Rat) * 2 ^ e = floatMagnitude (floatOf f (decodePacket c p)) ∨
                  (floatOf f (decodePacket c p)).significand % 2 = 0))

/-! ### Words and text -/

/-- R57 to R60: the words written out from the encoding table. -/
def Obligations.OperationWordsDecode : Prop :=
  decode 0b0010#4 = .ok (.edge false) ∧ decode 0b0011#4 = .ok (.edge true) ∧ decode 0b0100#4 = .ok .tick ∧
    decode 0b0110#4 = .ok .take ∧ decode 0b1000#4 = .ok .reset

/-- R61: every other word is rejected by name, and a run that contains one is refused at it, whatever stands before and after. -/
def Obligations.ReservedWordsAreRefused : Prop :=
  ∀ w : OpWord, w ∉ [0x2#4, 0x3#4, 0x4#4, 0x6#4, 0x8#4] →
    decode w = .error (.reserved w) ∧
      ∀ (s : State) (ops : List Instr) (rest : List Input) (k : Nat), s.cfg.check = none →
        Host.Core.run Sys2Proof.core (ops.length + 1 + k) { s with inputs := wordsOf ops ++ .word w :: rest } =
          .refused (.reservedWord w)

/-- Decoding the word of an operation gives it back, with every operand (made per instruction: family RoundTrip). -/
def Obligations.EncodedOperationsDecodeBack : Prop := ∀ i : Instr, i.wf = true → decode (encode i) = .ok i

/-- R66: a word list decodes to a run exactly when it is the run's words, so no word has two meanings and no bit is dropped. -/
def Obligations.WordListsAreExactlyTheirRuns : Prop :=
  ∀ (ws : List OpWord) (ops : List Instr), decodeRun ws = .ok ops ↔ ws = ops.map encode

/-- R64: a run's text, with comments and blank lines anywhere, reads back as the run. -/
def Obligations.RunTextReadsBack : Prop :=
  ∀ (invert : Bool) (lines : List (Option Instr × Option (List Char))),
    (∀ l ∈ lines, ∀ c, l.2 = some c → '\n' ∉ c) →
      parseRun invert (lines.flatMap fun l => lineText l ++ ['\n']) = some (lines.filterMap Prod.fst)

/-- The spec's derivation in R65: `SEND v`, `GAP` is one well-formed transmission, and a TAKE after it returns `v`. -/
def Obligations.SendThenGapDelivers : Prop :=
  ∀ (s : State) (v : RawPacket), s.cfg.publishAt = .gap → 24 ≤ s.cfg.sat → AtRest s →
    ∃ t, runOps (sendOps s.cfg.invert v ++ gapOps ++ [.take]) s = .next t ∧ AtRest t ∧ t.ready = false ∧
      t.takes = s.takes ++ [some (v, decodePacket s.cfg v)]

/-! ### Steps and runs -/

/-- R66: a step applies the operation of the oldest word and takes that word off the supplied inputs. -/
def Obligations.StepAppliesTheDecodedWord : Prop :=
  ∀ (s : State) (w : OpWord) (i : Instr) (rest : List Input),
    s.cfg.check = none → s.inputs = .word w :: rest → decode w = .ok i →
      step s = exec i { s with inputs := rest } ∧ ∃ t, step s = .next t ∧ t.inputs = rest

/-- The three refusals of R108 and R136; no fault; a refused run stays refused and has no observation. The model's choices in it:
that a policy other than DEFER is among the illegal configurations (D8, U7) and refused before any input is applied (log entry 12),
and that a change of configuration is presented as an input (log entry 11). -/
def Obligations.ListedInputsAreRefused : Prop :=
  (∀ s : State,
    s.cfg.packetBitCount ≠ 24 ∨ s.cfg.cntWidth < 5 ∨ s.cfg.overrunPolicy ≠ .defer →
      ∃ why, step s = .refused (.illegalConfiguration why)) ∧
    (∀ (s : State) (w : OpWord) (rest : List Input),
      s.cfg.check = none → s.inputs = .word w :: rest → decode w = .error (.reserved w) →
        step s = .refused (.reservedWord w)) ∧
    (∀ (s : State) (c : Config) (rest : List Input),
      s.cfg.check = none → s.inputs = .configure c :: rest → c ≠ s.cfg → step s = .refused .configurationChange) ∧
    (∀ (s : State) (r : Fault), step s ≠ .fault r) ∧
    (∀ (s : State) (k n : Nat) (r : Refusal), Host.Core.run Sys2Proof.core k s = .refused r →
      Host.Core.run Sys2Proof.core (k + n) s = .refused r) ∧
    ∀ r : Refusal, observation (.refused r) = none

/-- Nothing but what R108 lists is refused, and, where a clk cycle is supplied, the parameters R138 and R139 give no meaning (the
model's choice, log entry 12). -/
def Obligations.NothingElseIsRefused : Prop :=
  ∀ (s : State) (r : Refusal), step s = .refused r →
    s.cfg.check ≠ none ∨
      (∃ (w : OpWord) (rest : List Input), s.inputs = .word w :: rest ∧ decode w = .error (.reserved w)) ∨
      (∃ (c : Config) (rest : List Input), s.inputs = .configure c :: rest ∧ c ≠ s.cfg) ∨
      ∃ (p : Pins) (rest : List Input), s.inputs = .cycle p :: rest ∧ s.cfg.checkCycle ≠ none

/-- R30: no step writes the configuration, whatever is supplied. -/
def Obligations.StepsNeverWriteTheConfiguration : Prop :=
  ∀ s t : State, step s = .next t → t.cfg = s.cfg

/-- Every operation completes in every state (R105), and so does every admitted run. The model's choices in the second clause: steps
past the last input (log entry 5), and clk cycles under legal parameters among the admitted inputs (log entry 12). -/
def Obligations.AdmittedRunsComplete : Prop :=
  (∀ (i : Instr) (s : State), ∃ t, exec i s = .next t) ∧
    ∀ (s : State) (k : Nat), Admitted s → ∃ t : State, Host.Core.run Sys2Proof.core k s = .next t

/-- R6: a run of words is its operations applied one at a time, in the order supplied. -/
def Obligations.WordRunIsItsOperations : Prop :=
  ∀ (s : State) (ops : List Instr) (rest : List Input), s.cfg.check = none →
    Host.Core.run Sys2Proof.core ops.length { s with inputs := wordsOf ops ++ rest } =
      runOps ops { s with inputs := rest }

/-- R145: a run ends when its operations are exhausted; nothing changes after that, and the observation is the TAKE results with the
final state. That a step without input answers the same state is a DESIGN CHOICE (log entry 5). -/
def Obligations.ExhaustedRunStands : Prop :=
  ∀ (s : State) (k : Nat), s.cfg.check = none → s.inputs = [] →
    Host.Core.run Sys2Proof.core k s = .next s ∧
      observation (Host.Core.run Sys2Proof.core k s) = some (s.takes, s)

/-! ### Invariants -/

/-- The spec's derivations R35 to R37, with the count's and the synchronisers' widths: every step keeps them, in every state. -/
def Obligations.EveryStepKeepsInvariants : Prop :=
  ∀ s t : State, Inv s → step s = .next t → Inv t

/-- The invariants hold at the start of a run, under every configuration. -/
def Obligations.ResetMeetsInvariants : Prop :=
  Inv State.reset ∧ ∀ (c : Config) (p : RawPacket), Inv (State.resetWith c p)

/-- R27: who sets and who clears `ready`. -/
def Obligations.ReadyHasItsWritersOnly : Prop :=
  ∀ (i : Instr) (s t : State), exec i s = .next t →
    (s.ready = false → t.ready = true → i = .tick ∧ PublishesAt s) ∧
      (s.ready = true → t.ready = false → i = .take ∨ i = .reset)

/-- R26 and R123: `pkt` is written by a publishing TICK, with `buffer`, and by RESET; nothing but TAKE reads it. -/
def Obligations.PacketLatchHasItsWritersOnly : Prop :=
  ∀ (i : Instr) (s t : State), exec i s = .next t →
    (t.pkt ≠ s.pkt → (i = .tick ∧ PublishesAt s ∧ t.pkt = s.buffer) ∨ i = .reset) ∧
      ∀ p : RawPacket, i ≠ .take →
        ∃ t', exec i { s with pkt := p } = .next t' ∧ t' = { t with pkt := t'.pkt }

/-- The spec's derivation R38 (the source's invariant of the latch): in every run from rest, whenever `ready` is 1, `pkt` is what
`buffer` held at a TICK that found 24, the bits of exactly 24 EDGEs since the accumulator was empty. Both policies. -/
def Obligations.ReadyMeansTwentyFourSampledBits : Prop :=
  ∀ (s t : State) (ops : List Instr), 24 < s.cfg.sat → AtRest s → s.ready = false → runOps ops s = .next t →
    t.ready = true →
      ∃ (pre burst post : List Instr) (u v : State),
        ops = pre ++ (burst ++ Instr.tick :: post) ∧ Instr.reset ∉ burst ∧
          runOps pre s = .next u ∧ EmptyAccumulator u ∧ runOps burst u = .next v ∧ PublishesAt v ∧
          (levels burst).length = 24 ∧ v.buffer = packetOf s.cfg.invert (levels burst) ∧ t.pkt = v.buffer

/-- R28, R29: `dbg` and `phase` are read by nothing inside the block, over whole runs. -/
def Obligations.StatusNeverInfluencesTheBlock : Prop :=
  ∀ (ops : List Instr) (s : State) (d : Bool) (ph : Phase),
    ∃ t u, runOps ops s = .next t ∧ runOps ops { s with dbg := d, phase := ph } = .next u ∧
      u = { t with dbg := u.dbg, phase := u.phase }

/-! ### Framing -/

/-- The spec's framing theorem R141 with R142, one transmission: every TICK up to the first after `e_m` is in progress; the second
detects the gap, publishes exactly when there are 24 EDGEs, bit 0 first, and leaves the framer at rest. -/
def Obligations.FramingTheorem : Prop :=
  ∀ (s : State) (body takes₁ takes₂ : List Instr),
    s.cfg.publishAt = .gap → AtRest s → TransmissionBody body → (levels body).length ≤ s.cfg.sat →
    (∀ i ∈ takes₁, i = Instr.take) → (∀ i ∈ takes₂, i = Instr.take) →
      (∀ pre post : List Instr, body ++ (takes₁ ++ [Instr.tick]) = pre ++ Instr.tick :: post →
        ∃ u v, runOps pre s = .next u ∧ exec .tick u = .next v ∧ u.bitsRead ≠ 0 ∧ u.bitsRead ≠ u.lastBitsRead ∧
          v.phase = .accumulating ∧ v.pkt = u.pkt ∧ v.ready = u.ready) ∧
      ∃ u v, runOps (body ++ (takes₁ ++ Instr.tick :: takes₂)) s = .next u ∧ exec .tick u = .next v ∧
        u.pkt = s.pkt ∧ v.phase = .gapDetected ∧ AtRest v ∧
        if (levels body).length = 24 then
          v.ready = true ∧
            ∀ k, k < 24 → v.pkt.getLsbD k = ((levels body).map fun lvl => xor lvl s.cfg.invert).getD k false
        else v.ready = u.ready ∧ v.pkt = u.pkt

/-- Headline, from R141, R142, R48 and R90: over any number of transmissions under the envelope, of any lengths up to SAT, with a TAKE
after each gap (more than R131 asks: one between two publications) and TAKEs anywhere else, the consumer gets exactly the 24-EDGE
packets with their measurements, in order, each once. -/
def Obligations.EveryPacketIsDeliveredOnceInOrder : Prop :=
  ∀ (s : State) (lead : List Instr) (ts : List Transmission),
    s.cfg.publishAt = .gap → AtRest s → s.ready = false → Quiet lead →
    (∀ x ∈ ts, x.Framed s.cfg.sat ∧ Instr.take ∈ x.gapAfter) →
      ∃ t, runOps (lead ++ ts.flatMap Transmission.ops) s = .next t ∧ AtRest t ∧ t.ready = false ∧
        delivered t.takes =
          delivered s.takes ++
            (ts.filterMap (Transmission.published s.cfg.invert)).map fun p => (p, decodePacket s.cfg p)

/-- The spec's derivation R143: whatever came before, two TICKs with no EDGE leave the framer at rest. The invariants rule out states
no run reaches. -/
def Obligations.TwoTicksResynchronise : Prop :=
  ∀ (s : State) (gap : List Instr), Inv s → TransmissionGap gap →
    ∃ t, runOps gap s = .next t ∧ AtRest t

/-- The spec's derivation R144: under COUNT a 24-EDGE transmission is published at the first TICK after it and again at the gap, so two
TAKEs both return it; and a longer burst is published, its first 24 bits, if a TICK falls after its 24th EDGE. -/
def Obligations.CountPolicyPublishesTwice : Prop :=
  (∀ (s : State) (body : List Instr),
    s.cfg.publishAt = .count → AtRest s → 24 ≤ s.cfg.sat → TransmissionBody body → (levels body).length = 24 →
      ∃ u t, runOps body s = .next u ∧ runOps [.tick, .take, .tick, .take] u = .next t ∧ AtRest t ∧
        t.takes = u.takes ++
          [some (packetOf s.cfg.invert (levels body), decodePacket s.cfg (packetOf s.cfg.invert (levels body))),
            some (packetOf s.cfg.invert (levels body), decodePacket s.cfg (packetOf s.cfg.invert (levels body)))]) ∧
    ∀ (s : State) (pre post : List Instr),
      s.cfg.publishAt = .count → AtRest s → 24 ≤ s.cfg.sat → TransmissionBody (pre ++ Instr.tick :: post) →
      (levels pre).length = 24 →
        ∃ t, runOps (pre ++ [.tick]) s = .next t ∧ t.ready = true ∧ t.pkt = packetOf s.cfg.invert (levels pre)

/-- The spec's derivation R133 (b): with fewer than two TICKs between them two transmissions are one burst, and at its gap both are
lost unless the burst happens to have 24 bits. -/
def Obligations.MergedTransmissionsAreDropped : Prop :=
  ∀ (s : State) (first between second : List Instr),
    s.cfg.publishAt = .gap → AtRest s → TransmissionBody first → TransmissionBody second → Quiet between →
    tickCount between ≤ 1 → (levels (first ++ second)).length ≤ s.cfg.sat →
    (levels (first ++ second)).length ≠ 24 →
      ∃ t, runOps (first ++ (between ++ (second ++ gapOps))) s = .next t ∧ AtRest t ∧ t.pkt = s.pkt ∧
        (t.ready = true → s.ready = true)

/-- The spec's derivation R133 (a): two TICKs with no EDGE inside a transmission split it into two bursts, each dropped unless it has
exactly 24 bits. -/
def Obligations.FalseGapSplitsTransmission : Prop :=
  ∀ (s : State) (first second : List Instr),
    s.cfg.publishAt = .gap → AtRest s → TransmissionBody first → TransmissionBody second →
    (levels first).length ≤ s.cfg.sat → (levels second).length ≤ s.cfg.sat →
    (levels first).length ≠ 24 → (levels second).length ≠ 24 →
      ∃ t, runOps (first ++ (gapOps ++ (second ++ gapOps))) s = .next t ∧ AtRest t ∧ t.pkt = s.pkt ∧
        (t.ready = true → s.ready = true)

/-- The spec's derivations R87 (e) and R134: two TICKs at SAT detect a gap although EDGEs arrive between them, nothing is published,
and the next EDGE starts a new burst. -/
def Obligations.SaturatedOverrunLooksLikeGap : Prop :=
  ∀ (s : State) (lvls : List Bool) (lvl : Bool),
    24 < s.cfg.sat → s.bitsRead = s.cfg.sat → s.lastBitsRead = s.cfg.sat →
      ∃ t u, runOps (lvls.map Instr.edge ++ [.tick]) s = .next t ∧ AtRest t ∧ t.phase = .gapDetected ∧
        t.pkt = s.pkt ∧ t.ready = s.ready ∧ exec (.edge lvl) t = .next u ∧ u.bitsRead = 1

/-! ### The cycle-level realisation -/

/-- The order of R112: events of one cycle are applied as RESET, EDGE, TICK, TAKE, and a RESET discards the others. That a cycle has a
RESET exactly when its reset line is 1 is the model's choice (log entry 19). -/
def Obligations.CoincidentEventsAreOrdered : Prop :=
  ∀ (p : Pins) (s : State) (rest : List Input),
    s.cfg.check = none → s.cfg.checkCycle = none → s.inputs = .cycle p :: rest →
      ∃ t u, step s = .next t ∧
        runOps
          (if p.reset = true then [.reset]
          else
            (detectEdge s (shiftLines p s)).toList.map Instr.edge ++
              ((if p.tick = true then [.tick] else []) ++ (if p.take = true then [.take] else [])))
          { s with inputs := rest } = .next u ∧
        t = { u with front := t.front }

/-- The spec's derivation R129: an edge in the very cycle of a tick is counted first, so the tick is in progress: no false gap. -/
def Obligations.CoincidentEdgePreventsFalseGap : Prop :=
  ∀ (p : Pins) (s : State) (rest : List Input) (lvl : Bool),
    s.cfg.check = none → s.cfg.checkCycle = none → SnapshotInv s → s.bitsRead < s.cfg.sat →
    s.inputs = .cycle p :: rest → p.reset = false → p.tick = true → detectEdge s (shiftLines p s) = some lvl →
      ∃ t, step s = .next t ∧ t.phase = .accumulating ∧ t.bitsRead = s.bitsRead + 1

/-- R10, R63 and R138. The active transition is ACTIVE_EDGE_NONINV with INVERT 0 and the opposite with INVERT 1; a rising one is low
before and high after, a falling one the reverse. Over any sampled lines, the block sees one EDGE per active transition of the
synchronised clock, with the synchronised data level of the same cycle, and nothing else. The lines come SYNC_STAGES deep. -/
def Obligations.LinesYieldOneEdgePerActiveTransition : Prop :=
  (∀ c : Config,
    (c.invert = false → c.activeEdge = c.activeEdgeNoninv) ∧
      (c.invert = true → c.activeEdgeNoninv = .rising → c.activeEdge = .falling) ∧
      (c.invert = true → c.activeEdgeNoninv = .falling → c.activeEdge = .rising)) ∧
  (∀ before after : Bool,
    (isActiveEdge .rising before after = true ↔ before = false ∧ after = true) ∧
      (isActiveEdge .falling before after = true ↔ before = true ∧ after = false)) ∧
  ∀ (s : State) (samples : List (Bool × Bool)),
    s.cfg.check = none → s.cfg.checkCycle = none → FrontInv s →
      ∃ t u : State, Host.Core.run Sys2Proof.core samples.length { s with inputs := lineCycles samples } = .next t ∧
        runOps
          (lineOps s.cfg.activeEdge (syncLevel s.front.sclkSync)
            ((((s.front.sclkSync.reverse ++ samples.map Prod.fst).zip
              (s.front.sdataSync.reverse ++ samples.map Prod.snd)).drop 1).take samples.length))
          { s with inputs := [] } = .next u ∧
        t = { u with front := t.front }

/-- R139: the result of the cycle's TAKE is at the output TAKE_LATENCY cycles later, and held until the next TAKE. That the output
is held, and a result on its way delivered, across a RESET too is the model's choice (log entry 14), and so is a RESET in every
cycle with the reset line at 1 (log entry 19). -/
def Obligations.TakeResultReachesTheOutput : Prop :=
  ∀ (p : Pins) (s t : State), s.cfg.checkCycle = none → execCycle p s = .next t →
    (p.take = true → p.reset = false →
      t.takes.length = s.takes.length + 1 ∧
        (s.cfg.takeLatency = 0 → t.takes.getLast? = some (takeOutput t) ∧ t.front.takePending = none) ∧
        (s.cfg.takeLatency = 1 → ∀ (p' : Pins) (t' : State), execCycle p' t = .next t' →
          t.takes.getLast? = some (takeOutput t') ∧
            (p'.take = false ∨ p'.reset = true → t'.front.takePending = none))) ∧
      (p.take = false ∨ p.reset = true → s.front.takePending = none →
        takeOutput t = takeOutput s ∧ t.front.takePending = none)

/-! ### The envelope in time -/

/-- The spec's derivations in R128 and R129: with an exactly periodic timer, EDGEs at most `P` apart and an EDGE before a TICK of the
same instant, ENV-INTRA holds from the first EDGE to the last. -/
def Obligations.PeriodicTimerMeetsEnvIntra : Prop :=
  ∀ (gap period : Nat) (tr : List Timed),
    gap ≤ period → TimeOrdered tr → EdgesWithin gap tr → TicksEvery period tr →
    (∃ t lvl rest, tr = (t, Instr.edge lvl) :: rest) → (∃ t lvl rest, tr = rest ++ [(t, Instr.edge lvl)]) →
      EnvIntra (untimed tr)

/-- The spec's derivation in R128: under the timing relation two TICKs fall between the last EDGE of a transmission and the first of
the next, when the timer has started. -/
def Obligations.PeriodicTimerTicksTwiceInTheGap : Prop :=
  ∀ (c : Config) (start lastEdge firstEdge : Nat),
    c.envelope = true → start ≤ lastEdge → lastEdge + c.packetGapDuration ≤ firstEdge →
      ∃ k, lastEdge < tickTime start c.tickPeriod k ∧ tickTime start c.tickPeriod (k + 1) < firstEdge

/-! ### Outputs -/

/-- R119, R120, R110, R29: the debug level and the phase's code come out exactly when DEBUG_PRESENT is true, and `ready` as a level; the
codes are 00 IDLE, 01 ACCUMULATING, 10 GAP_DETECTED, and 11 is never held. -/
def Obligations.OutputsFollowTheState : Prop :=
  (Phase.idle.code = 0b00#2 ∧ Phase.accumulating.code = 0b01#2 ∧ Phase.gapDetected.code = 0b10#2) ∧ ∀ s : State,
    (s.cfg.debugPresent = true → debugOutput s = some (s.dbg, s.phase.code)) ∧
      (s.cfg.debugPresent = false → debugOutput s = none) ∧ readyLevel s = s.ready ∧ s.phase.code ≠ 0b11#2

/-- R121: the block is idle exactly when no bit is held and no packet waits, and then a TICK changes only `dbg` and `phase`. -/
def Obligations.IdleBlockOnlyDrivesStatus : Prop :=
  ∀ s : State,
    (isIdle s = true ↔ s.bitsRead = 0 ∧ s.ready = false) ∧
      (isIdle s = true → ∃ t, exec .tick s = .next t ∧ t = { s with dbg := t.dbg, phase := t.phase })
end

