-- ==== Sys2Proof/Laws/State.lean ====
section
/-!
SUPPORT. One lemma per field per update of the state, so that no later proof unfolds a record update.
-/

namespace Sys2Proof.Machine

/-! ### clearReady -/

@[simp] theorem clearReady_buffer (s : State) : (clearReady s).buffer = s.buffer := rfl
@[simp] theorem clearReady_bitsRead (s : State) : (clearReady s).bitsRead = s.bitsRead := rfl
@[simp] theorem clearReady_nextBitMask (s : State) : (clearReady s).nextBitMask = s.nextBitMask := rfl
@[simp] theorem clearReady_lastBitsRead (s : State) : (clearReady s).lastBitsRead = s.lastBitsRead := rfl
@[simp] theorem clearReady_pkt (s : State) : (clearReady s).pkt = s.pkt := rfl
@[simp] theorem clearReady_ready (s : State) : (clearReady s).ready = false := rfl
@[simp] theorem clearReady_dbg (s : State) : (clearReady s).dbg = s.dbg := rfl
@[simp] theorem clearReady_phase (s : State) : (clearReady s).phase = s.phase := rfl
@[simp] theorem clearReady_front (s : State) : (clearReady s).front = s.front := rfl
@[simp] theorem clearReady_cfg (s : State) : (clearReady s).cfg = s.cfg := rfl
@[simp] theorem clearReady_inputs (s : State) : (clearReady s).inputs = s.inputs := rfl
@[simp] theorem clearReady_takes (s : State) : (clearReady s).takes = s.takes := rfl
@[simp] theorem clearReady_draws (s : State) : (clearReady s).draws = s.draws := rfl

/-! ### setDbg -/

@[simp] theorem setDbg_buffer (b : Bool) (s : State) : (setDbg b s).buffer = s.buffer := rfl
@[simp] theorem setDbg_bitsRead (b : Bool) (s : State) : (setDbg b s).bitsRead = s.bitsRead := rfl
@[simp] theorem setDbg_nextBitMask (b : Bool) (s : State) : (setDbg b s).nextBitMask = s.nextBitMask := rfl
@[simp] theorem setDbg_lastBitsRead (b : Bool) (s : State) : (setDbg b s).lastBitsRead = s.lastBitsRead := rfl
@[simp] theorem setDbg_pkt (b : Bool) (s : State) : (setDbg b s).pkt = s.pkt := rfl
@[simp] theorem setDbg_ready (b : Bool) (s : State) : (setDbg b s).ready = s.ready := rfl
@[simp] theorem setDbg_dbg (b : Bool) (s : State) : (setDbg b s).dbg = b := rfl
@[simp] theorem setDbg_phase (b : Bool) (s : State) : (setDbg b s).phase = s.phase := rfl
@[simp] theorem setDbg_front (b : Bool) (s : State) : (setDbg b s).front = s.front := rfl
@[simp] theorem setDbg_cfg (b : Bool) (s : State) : (setDbg b s).cfg = s.cfg := rfl
@[simp] theorem setDbg_inputs (b : Bool) (s : State) : (setDbg b s).inputs = s.inputs := rfl
@[simp] theorem setDbg_takes (b : Bool) (s : State) : (setDbg b s).takes = s.takes := rfl
@[simp] theorem setDbg_draws (b : Bool) (s : State) : (setDbg b s).draws = s.draws := rfl

/-! ### setPhase -/

@[simp] theorem setPhase_buffer (p : Phase) (s : State) : (setPhase p s).buffer = s.buffer := rfl
@[simp] theorem setPhase_bitsRead (p : Phase) (s : State) : (setPhase p s).bitsRead = s.bitsRead := rfl
@[simp] theorem setPhase_nextBitMask (p : Phase) (s : State) : (setPhase p s).nextBitMask = s.nextBitMask := rfl
@[simp] theorem setPhase_lastBitsRead (p : Phase) (s : State) : (setPhase p s).lastBitsRead = s.lastBitsRead := rfl
@[simp] theorem setPhase_pkt (p : Phase) (s : State) : (setPhase p s).pkt = s.pkt := rfl
@[simp] theorem setPhase_ready (p : Phase) (s : State) : (setPhase p s).ready = s.ready := rfl
@[simp] theorem setPhase_dbg (p : Phase) (s : State) : (setPhase p s).dbg = s.dbg := rfl
@[simp] theorem setPhase_phase (p : Phase) (s : State) : (setPhase p s).phase = p := rfl
@[simp] theorem setPhase_front (p : Phase) (s : State) : (setPhase p s).front = s.front := rfl
@[simp] theorem setPhase_cfg (p : Phase) (s : State) : (setPhase p s).cfg = s.cfg := rfl
@[simp] theorem setPhase_inputs (p : Phase) (s : State) : (setPhase p s).inputs = s.inputs := rfl
@[simp] theorem setPhase_takes (p : Phase) (s : State) : (setPhase p s).takes = s.takes := rfl
@[simp] theorem setPhase_draws (p : Phase) (s : State) : (setPhase p s).draws = s.draws := rfl

/-! ### insertBit -/

@[simp] theorem insertBit_buffer (b : Bool) (s : State) : (insertBit b s).buffer = if b then s.buffer ||| s.nextBitMask else s.buffer := rfl
@[simp] theorem insertBit_bitsRead (b : Bool) (s : State) : (insertBit b s).bitsRead = s.bitsRead := rfl
@[simp] theorem insertBit_nextBitMask (b : Bool) (s : State) : (insertBit b s).nextBitMask = s.nextBitMask := rfl
@[simp] theorem insertBit_lastBitsRead (b : Bool) (s : State) : (insertBit b s).lastBitsRead = s.lastBitsRead := rfl
@[simp] theorem insertBit_pkt (b : Bool) (s : State) : (insertBit b s).pkt = s.pkt := rfl
@[simp] theorem insertBit_ready (b : Bool) (s : State) : (insertBit b s).ready = s.ready := rfl
@[simp] theorem insertBit_dbg (b : Bool) (s : State) : (insertBit b s).dbg = s.dbg := rfl
@[simp] theorem insertBit_phase (b : Bool) (s : State) : (insertBit b s).phase = s.phase := rfl
@[simp] theorem insertBit_front (b : Bool) (s : State) : (insertBit b s).front = s.front := rfl
@[simp] theorem insertBit_cfg (b : Bool) (s : State) : (insertBit b s).cfg = s.cfg := rfl
@[simp] theorem insertBit_inputs (b : Bool) (s : State) : (insertBit b s).inputs = s.inputs := rfl
@[simp] theorem insertBit_takes (b : Bool) (s : State) : (insertBit b s).takes = s.takes := rfl
@[simp] theorem insertBit_draws (b : Bool) (s : State) : (insertBit b s).draws = s.draws := rfl

/-! ### countEdge -/

@[simp] theorem countEdge_buffer (s : State) : (countEdge s).buffer = s.buffer := rfl
@[simp] theorem countEdge_bitsRead (s : State) : (countEdge s).bitsRead = if s.bitsRead < s.cfg.sat then s.bitsRead + 1 else s.bitsRead := rfl
@[simp] theorem countEdge_nextBitMask (s : State) : (countEdge s).nextBitMask = s.nextBitMask := rfl
@[simp] theorem countEdge_lastBitsRead (s : State) : (countEdge s).lastBitsRead = s.lastBitsRead := rfl
@[simp] theorem countEdge_pkt (s : State) : (countEdge s).pkt = s.pkt := rfl
@[simp] theorem countEdge_ready (s : State) : (countEdge s).ready = s.ready := rfl
@[simp] theorem countEdge_dbg (s : State) : (countEdge s).dbg = s.dbg := rfl
@[simp] theorem countEdge_phase (s : State) : (countEdge s).phase = s.phase := rfl
@[simp] theorem countEdge_front (s : State) : (countEdge s).front = s.front := rfl
@[simp] theorem countEdge_cfg (s : State) : (countEdge s).cfg = s.cfg := rfl
@[simp] theorem countEdge_inputs (s : State) : (countEdge s).inputs = s.inputs := rfl
@[simp] theorem countEdge_takes (s : State) : (countEdge s).takes = s.takes := rfl
@[simp] theorem countEdge_draws (s : State) : (countEdge s).draws = s.draws := rfl

/-! ### shiftMask -/

@[simp] theorem shiftMask_buffer (s : State) : (shiftMask s).buffer = s.buffer := rfl
@[simp] theorem shiftMask_bitsRead (s : State) : (shiftMask s).bitsRead = s.bitsRead := rfl
@[simp] theorem shiftMask_nextBitMask (s : State) : (shiftMask s).nextBitMask = s.nextBitMask <<< 1 := rfl
@[simp] theorem shiftMask_lastBitsRead (s : State) : (shiftMask s).lastBitsRead = s.lastBitsRead := rfl
@[simp] theorem shiftMask_pkt (s : State) : (shiftMask s).pkt = s.pkt := rfl
@[simp] theorem shiftMask_ready (s : State) : (shiftMask s).ready = s.ready := rfl
@[simp] theorem shiftMask_dbg (s : State) : (shiftMask s).dbg = s.dbg := rfl
@[simp] theorem shiftMask_phase (s : State) : (shiftMask s).phase = s.phase := rfl
@[simp] theorem shiftMask_front (s : State) : (shiftMask s).front = s.front := rfl
@[simp] theorem shiftMask_cfg (s : State) : (shiftMask s).cfg = s.cfg := rfl
@[simp] theorem shiftMask_inputs (s : State) : (shiftMask s).inputs = s.inputs := rfl
@[simp] theorem shiftMask_takes (s : State) : (shiftMask s).takes = s.takes := rfl
@[simp] theorem shiftMask_draws (s : State) : (shiftMask s).draws = s.draws := rfl

/-! ### clearAccumulator -/

@[simp] theorem clearAccumulator_buffer (s : State) : (clearAccumulator s).buffer = 0x000000#24 := rfl
@[simp] theorem clearAccumulator_bitsRead (s : State) : (clearAccumulator s).bitsRead = 0 := rfl
@[simp] theorem clearAccumulator_nextBitMask (s : State) : (clearAccumulator s).nextBitMask = 0x000001#24 := rfl
@[simp] theorem clearAccumulator_lastBitsRead (s : State) : (clearAccumulator s).lastBitsRead = s.lastBitsRead := rfl
@[simp] theorem clearAccumulator_pkt (s : State) : (clearAccumulator s).pkt = s.pkt := rfl
@[simp] theorem clearAccumulator_ready (s : State) : (clearAccumulator s).ready = s.ready := rfl
@[simp] theorem clearAccumulator_dbg (s : State) : (clearAccumulator s).dbg = s.dbg := rfl
@[simp] theorem clearAccumulator_phase (s : State) : (clearAccumulator s).phase = s.phase := rfl
@[simp] theorem clearAccumulator_front (s : State) : (clearAccumulator s).front = s.front := rfl
@[simp] theorem clearAccumulator_cfg (s : State) : (clearAccumulator s).cfg = s.cfg := rfl
@[simp] theorem clearAccumulator_inputs (s : State) : (clearAccumulator s).inputs = s.inputs := rfl
@[simp] theorem clearAccumulator_takes (s : State) : (clearAccumulator s).takes = s.takes := rfl
@[simp] theorem clearAccumulator_draws (s : State) : (clearAccumulator s).draws = s.draws := rfl

/-! ### publish -/

@[simp] theorem publish_buffer (s : State) : (publish s).buffer = s.buffer := rfl
@[simp] theorem publish_bitsRead (s : State) : (publish s).bitsRead = s.bitsRead := rfl
@[simp] theorem publish_nextBitMask (s : State) : (publish s).nextBitMask = s.nextBitMask := rfl
@[simp] theorem publish_lastBitsRead (s : State) : (publish s).lastBitsRead = s.lastBitsRead := rfl
@[simp] theorem publish_pkt (s : State) : (publish s).pkt = s.buffer := rfl
@[simp] theorem publish_ready (s : State) : (publish s).ready = true := rfl
@[simp] theorem publish_dbg (s : State) : (publish s).dbg = s.dbg := rfl
@[simp] theorem publish_phase (s : State) : (publish s).phase = s.phase := rfl
@[simp] theorem publish_front (s : State) : (publish s).front = s.front := rfl
@[simp] theorem publish_cfg (s : State) : (publish s).cfg = s.cfg := rfl
@[simp] theorem publish_inputs (s : State) : (publish s).inputs = s.inputs := rfl
@[simp] theorem publish_takes (s : State) : (publish s).takes = s.takes := rfl
@[simp] theorem publish_draws (s : State) : (publish s).draws = s.draws := rfl

/-! ### snapshotCount -/

@[simp] theorem snapshotCount_buffer (s : State) : (snapshotCount s).buffer = s.buffer := rfl
@[simp] theorem snapshotCount_bitsRead (s : State) : (snapshotCount s).bitsRead = s.bitsRead := rfl
@[simp] theorem snapshotCount_nextBitMask (s : State) : (snapshotCount s).nextBitMask = s.nextBitMask := rfl
@[simp] theorem snapshotCount_lastBitsRead (s : State) : (snapshotCount s).lastBitsRead = s.bitsRead := rfl
@[simp] theorem snapshotCount_pkt (s : State) : (snapshotCount s).pkt = s.pkt := rfl
@[simp] theorem snapshotCount_ready (s : State) : (snapshotCount s).ready = s.ready := rfl
@[simp] theorem snapshotCount_dbg (s : State) : (snapshotCount s).dbg = s.dbg := rfl
@[simp] theorem snapshotCount_phase (s : State) : (snapshotCount s).phase = s.phase := rfl
@[simp] theorem snapshotCount_front (s : State) : (snapshotCount s).front = s.front := rfl
@[simp] theorem snapshotCount_cfg (s : State) : (snapshotCount s).cfg = s.cfg := rfl
@[simp] theorem snapshotCount_inputs (s : State) : (snapshotCount s).inputs = s.inputs := rfl
@[simp] theorem snapshotCount_takes (s : State) : (snapshotCount s).takes = s.takes := rfl
@[simp] theorem snapshotCount_draws (s : State) : (snapshotCount s).draws = s.draws := rfl

/-! ### recordTake -/

@[simp] theorem recordTake_buffer (r : TakeResult) (s : State) : (recordTake r s).buffer = s.buffer := rfl
@[simp] theorem recordTake_bitsRead (r : TakeResult) (s : State) : (recordTake r s).bitsRead = s.bitsRead := rfl
@[simp] theorem recordTake_nextBitMask (r : TakeResult) (s : State) : (recordTake r s).nextBitMask = s.nextBitMask := rfl
@[simp] theorem recordTake_lastBitsRead (r : TakeResult) (s : State) : (recordTake r s).lastBitsRead = s.lastBitsRead := rfl
@[simp] theorem recordTake_pkt (r : TakeResult) (s : State) : (recordTake r s).pkt = s.pkt := rfl
@[simp] theorem recordTake_ready (r : TakeResult) (s : State) : (recordTake r s).ready = s.ready := rfl
@[simp] theorem recordTake_dbg (r : TakeResult) (s : State) : (recordTake r s).dbg = s.dbg := rfl
@[simp] theorem recordTake_phase (r : TakeResult) (s : State) : (recordTake r s).phase = s.phase := rfl
@[simp] theorem recordTake_front (r : TakeResult) (s : State) : (recordTake r s).front = s.front := rfl
@[simp] theorem recordTake_cfg (r : TakeResult) (s : State) : (recordTake r s).cfg = s.cfg := rfl
@[simp] theorem recordTake_inputs (r : TakeResult) (s : State) : (recordTake r s).inputs = s.inputs := rfl
@[simp] theorem recordTake_takes (r : TakeResult) (s : State) : (recordTake r s).takes = s.takes ++ [r] := rfl
@[simp] theorem recordTake_draws (r : TakeResult) (s : State) : (recordTake r s).draws = s.draws := rfl

/-! ### resetBlock -/

@[simp] theorem resetBlock_buffer (s : State) : (resetBlock s).buffer = 0x000000#24 := rfl
@[simp] theorem resetBlock_bitsRead (s : State) : (resetBlock s).bitsRead = 0 := rfl
@[simp] theorem resetBlock_nextBitMask (s : State) : (resetBlock s).nextBitMask = 0x000001#24 := rfl
@[simp] theorem resetBlock_lastBitsRead (s : State) : (resetBlock s).lastBitsRead = 0 := rfl
@[simp] theorem resetBlock_pkt (s : State) : (resetBlock s).pkt = Config.freePacket s.draws := rfl
@[simp] theorem resetBlock_ready (s : State) : (resetBlock s).ready = false := rfl
@[simp] theorem resetBlock_dbg (s : State) : (resetBlock s).dbg = false := rfl
@[simp] theorem resetBlock_phase (s : State) : (resetBlock s).phase = .idle := rfl
@[simp] theorem resetBlock_front (s : State) : (resetBlock s).front = s.front := rfl
@[simp] theorem resetBlock_cfg (s : State) : (resetBlock s).cfg = s.cfg := rfl
@[simp] theorem resetBlock_inputs (s : State) : (resetBlock s).inputs = s.inputs := rfl
@[simp] theorem resetBlock_takes (s : State) : (resetBlock s).takes = s.takes := rfl
@[simp] theorem resetBlock_draws (s : State) : (resetBlock s).draws = s.draws + 1 := rfl

/-! ### shiftLines -/

@[simp] theorem shiftLines_buffer (p : Pins) (s : State) : (shiftLines p s).buffer = s.buffer := rfl
@[simp] theorem shiftLines_bitsRead (p : Pins) (s : State) : (shiftLines p s).bitsRead = s.bitsRead := rfl
@[simp] theorem shiftLines_nextBitMask (p : Pins) (s : State) : (shiftLines p s).nextBitMask = s.nextBitMask := rfl
@[simp] theorem shiftLines_lastBitsRead (p : Pins) (s : State) : (shiftLines p s).lastBitsRead = s.lastBitsRead := rfl
@[simp] theorem shiftLines_pkt (p : Pins) (s : State) : (shiftLines p s).pkt = s.pkt := rfl
@[simp] theorem shiftLines_ready (p : Pins) (s : State) : (shiftLines p s).ready = s.ready := rfl
@[simp] theorem shiftLines_dbg (p : Pins) (s : State) : (shiftLines p s).dbg = s.dbg := rfl
@[simp] theorem shiftLines_phase (p : Pins) (s : State) : (shiftLines p s).phase = s.phase := rfl
@[simp] theorem shiftLines_cfg (p : Pins) (s : State) : (shiftLines p s).cfg = s.cfg := rfl
@[simp] theorem shiftLines_inputs (p : Pins) (s : State) : (shiftLines p s).inputs = s.inputs := rfl
@[simp] theorem shiftLines_takes (p : Pins) (s : State) : (shiftLines p s).takes = s.takes := rfl
@[simp] theorem shiftLines_draws (p : Pins) (s : State) : (shiftLines p s).draws = s.draws := rfl

/-! ### deliverPending -/

@[simp] theorem deliverPending_buffer (s : State) : (deliverPending s).buffer = s.buffer := rfl
@[simp] theorem deliverPending_bitsRead (s : State) : (deliverPending s).bitsRead = s.bitsRead := rfl
@[simp] theorem deliverPending_nextBitMask (s : State) : (deliverPending s).nextBitMask = s.nextBitMask := rfl
@[simp] theorem deliverPending_lastBitsRead (s : State) : (deliverPending s).lastBitsRead = s.lastBitsRead := rfl
@[simp] theorem deliverPending_pkt (s : State) : (deliverPending s).pkt = s.pkt := rfl
@[simp] theorem deliverPending_ready (s : State) : (deliverPending s).ready = s.ready := rfl
@[simp] theorem deliverPending_dbg (s : State) : (deliverPending s).dbg = s.dbg := rfl
@[simp] theorem deliverPending_phase (s : State) : (deliverPending s).phase = s.phase := rfl
@[simp] theorem deliverPending_cfg (s : State) : (deliverPending s).cfg = s.cfg := rfl
@[simp] theorem deliverPending_inputs (s : State) : (deliverPending s).inputs = s.inputs := rfl
@[simp] theorem deliverPending_takes (s : State) : (deliverPending s).takes = s.takes := rfl
@[simp] theorem deliverPending_draws (s : State) : (deliverPending s).draws = s.draws := rfl

/-! ### The realisation's registers under shiftLines, deliverPending and presentTake -/

@[simp] theorem shiftLines_takePending (p : Pins) (s : State) :
    (shiftLines p s).front.takePending = s.front.takePending := rfl
@[simp] theorem shiftLines_takeOut (p : Pins) (s : State) : (shiftLines p s).front.takeOut = s.front.takeOut := rfl
@[simp] theorem deliverPending_takePending (s : State) : (deliverPending s).front.takePending = none := rfl
@[simp] theorem deliverPending_takeOut (s : State) :
    (deliverPending s).front.takeOut = s.front.takePending.getD s.front.takeOut := rfl
@[simp] theorem presentTake_takeOut (r : TakeResult) (s : State) :
    (presentTake r s).front.takeOut = if s.cfg.takeLatency = 0 then r else s.front.takeOut := by
  unfold presentTake; split <;> rfl
@[simp] theorem presentTake_takePending (r : TakeResult) (s : State) :
    (presentTake r s).front.takePending = if s.cfg.takeLatency = 0 then s.front.takePending else some r := by
  unfold presentTake; split <;> rfl

end Sys2Proof.Machine
end

