-- ==== Sys2Proof/Laws/Meanings.lean ====
section
/-!
SUPPORT. What each meaning can do, said once; runs of operations.
-/

namespace Sys2Proof.Machine

open Sys2Proof.Safety

/-! ### The arms -/

@[simp] theorem exec_edge (lvl : Bool) (s : State) : exec (.edge lvl) s = .next (recordBit lvl s) := rfl
@[simp] theorem exec_tick (s : State) : exec .tick s = .next (frameTick s) := rfl
@[simp] theorem exec_take (s : State) : exec .take s = .next (takeLatch s) := rfl
@[simp] theorem exec_reset (s : State) : exec .reset s = .next (resetBlock s) := rfl

/-- The state an operation leaves, every operation having one (R105). -/
theorem exec_next (i : Instr) (s : State) : ∃ t, exec i s = .next t := by
  cases i <;> exact ⟨_, rfl⟩

/-! ### EDGE -/

@[simp] theorem recordBit_buffer (lvl : Bool) (s : State) :
    (recordBit lvl s).buffer = if xor lvl s.cfg.invert then s.buffer ||| s.nextBitMask else s.buffer := rfl
@[simp] theorem recordBit_bitsRead (lvl : Bool) (s : State) :
    (recordBit lvl s).bitsRead = if s.bitsRead < s.cfg.sat then s.bitsRead + 1 else s.bitsRead := rfl
@[simp] theorem recordBit_nextBitMask (lvl : Bool) (s : State) :
    (recordBit lvl s).nextBitMask = s.nextBitMask <<< 1 := rfl
@[simp] theorem recordBit_lastBitsRead (lvl : Bool) (s : State) : (recordBit lvl s).lastBitsRead = s.lastBitsRead := rfl
@[simp] theorem recordBit_pkt (lvl : Bool) (s : State) : (recordBit lvl s).pkt = s.pkt := rfl
@[simp] theorem recordBit_ready (lvl : Bool) (s : State) : (recordBit lvl s).ready = s.ready := rfl
@[simp] theorem recordBit_dbg (lvl : Bool) (s : State) : (recordBit lvl s).dbg = s.dbg := rfl
@[simp] theorem recordBit_phase (lvl : Bool) (s : State) : (recordBit lvl s).phase = s.phase := rfl
@[simp] theorem recordBit_front (lvl : Bool) (s : State) : (recordBit lvl s).front = s.front := rfl
@[simp] theorem recordBit_cfg (lvl : Bool) (s : State) : (recordBit lvl s).cfg = s.cfg := rfl
@[simp] theorem recordBit_inputs (lvl : Bool) (s : State) : (recordBit lvl s).inputs = s.inputs := rfl
@[simp] theorem recordBit_takes (lvl : Bool) (s : State) : (recordBit lvl s).takes = s.takes := rfl
@[simp] theorem recordBit_draws (lvl : Bool) (s : State) : (recordBit lvl s).draws = s.draws := rfl

/-! ### TICK -/

/-- The three branches of R76 in one record: nothing else happens. -/
theorem frameTick_eq (s : State) :
    frameTick s =
      if s.bitsRead = 0 then { s with dbg := false, phase := .idle }
      else if s.bitsRead = s.lastBitsRead then
        { s with
          buffer := 0x000000#24, bitsRead := 0, nextBitMask := 0x000001#24, lastBitsRead := 0
          pkt := if s.bitsRead = 24 then s.buffer else s.pkt
          ready := if s.bitsRead = 24 then true else s.ready
          phase := .gapDetected }
      else
        { s with
          lastBitsRead := s.bitsRead
          pkt := if s.cfg.publishAt = .count ∧ s.bitsRead = 24 then s.buffer else s.pkt
          ready := if s.cfg.publishAt = .count ∧ s.bitsRead = 24 then true else s.ready
          dbg := true, phase := .accumulating } := by
  unfold frameTick gapTick inProgressTick publishAtGap publishAtCount idleTick
  rcases s with ⟨buffer, n, mask, l, pkt, ready, dbg, phase, front, cfg, inputs, takes, draws⟩
  by_cases h0 : n = 0
  · simp [h0, setPhase, setDbg]
  · by_cases hl : n = l <;> by_cases h24 : n = 24 <;> cases hp : cfg.publishAt <;>
      simp_all [setPhase, setDbg, snapshotCount, clearAccumulator, publish]

theorem frameTick_idle {s : State} (h : s.bitsRead = 0) :
    frameTick s = { s with dbg := false, phase := .idle } := by
  rw [frameTick_eq, if_pos h]

theorem frameTick_gap {s : State} (h : s.bitsRead ≠ 0) (hl : s.bitsRead = s.lastBitsRead) :
    frameTick s = { s with
      buffer := 0x000000#24, bitsRead := 0, nextBitMask := 0x000001#24, lastBitsRead := 0
      pkt := if s.bitsRead = 24 then s.buffer else s.pkt
      ready := if s.bitsRead = 24 then true else s.ready
      phase := .gapDetected } := by
  rw [frameTick_eq, if_neg h, if_pos hl]

theorem frameTick_inProgress {s : State} (h : s.bitsRead ≠ 0) (hl : s.bitsRead ≠ s.lastBitsRead) :
    frameTick s = { s with
      lastBitsRead := s.bitsRead
      pkt := if s.cfg.publishAt = .count ∧ s.bitsRead = 24 then s.buffer else s.pkt
      ready := if s.cfg.publishAt = .count ∧ s.bitsRead = 24 then true else s.ready
      dbg := true, phase := .accumulating } := by
  rw [frameTick_eq, if_neg h, if_neg hl]

@[simp] theorem frameTick_cfg (s : State) : (frameTick s).cfg = s.cfg := by
  rw [frameTick_eq]; split <;> [rfl; (split <;> rfl)]
@[simp] theorem frameTick_front (s : State) : (frameTick s).front = s.front := by
  rw [frameTick_eq]; split <;> [rfl; (split <;> rfl)]
@[simp] theorem frameTick_inputs (s : State) : (frameTick s).inputs = s.inputs := by
  rw [frameTick_eq]; split <;> [rfl; (split <;> rfl)]
@[simp] theorem frameTick_takes (s : State) : (frameTick s).takes = s.takes := by
  rw [frameTick_eq]; split <;> [rfl; (split <;> rfl)]
@[simp] theorem frameTick_draws (s : State) : (frameTick s).draws = s.draws := by
  rw [frameTick_eq]; split <;> [rfl; (split <;> rfl)]

theorem frameTick_pkt (s : State) :
    (frameTick s).pkt = if PublishesAt s then s.buffer else s.pkt := by
  rw [frameTick_eq]
  by_cases h0 : s.bitsRead = 0
  · simp [h0]
  · by_cases hl : s.bitsRead = s.lastBitsRead
    · by_cases h24 : s.lastBitsRead = 24 <;> simp_all [PublishesAt]
    · by_cases h24 : s.bitsRead = 24
      · have : s.lastBitsRead ≠ 24 := by omega
        simp [h24, this, PublishesAt]
        simp [show ¬ 24 = s.lastBitsRead by omega]
      · simp [h0, hl, h24, PublishesAt]

theorem frameTick_ready (s : State) :
    (frameTick s).ready = if PublishesAt s then true else s.ready := by
  rw [frameTick_eq]
  by_cases h0 : s.bitsRead = 0
  · simp [h0]
  · by_cases hl : s.bitsRead = s.lastBitsRead
    · by_cases h24 : s.lastBitsRead = 24 <;> simp_all [PublishesAt]
    · by_cases h24 : s.bitsRead = 24
      · have : s.lastBitsRead ≠ 24 := by omega
        simp [h24, this, PublishesAt]
        simp [show ¬ 24 = s.lastBitsRead by omega]
      · simp [h0, hl, h24, PublishesAt]

/-! ### TAKE -/

/-- R90 in one record: the result joins the observation and `ready` is clear. -/
theorem takeLatch_eq (s : State) :
    takeLatch s = { s with ready := false, takes := s.takes ++ [takeResult s] } := by
  unfold takeLatch
  rcases s with ⟨buffer, n, mask, l, pkt, ready, dbg, phase, front, cfg, inputs, takes, draws⟩
  cases ready <;> rfl

@[simp] theorem takeLatch_buffer (s : State) : (takeLatch s).buffer = s.buffer := by rw [takeLatch_eq]
@[simp] theorem takeLatch_bitsRead (s : State) : (takeLatch s).bitsRead = s.bitsRead := by rw [takeLatch_eq]
@[simp] theorem takeLatch_nextBitMask (s : State) : (takeLatch s).nextBitMask = s.nextBitMask := by rw [takeLatch_eq]
@[simp] theorem takeLatch_lastBitsRead (s : State) : (takeLatch s).lastBitsRead = s.lastBitsRead := by rw [takeLatch_eq]
@[simp] theorem takeLatch_pkt (s : State) : (takeLatch s).pkt = s.pkt := by rw [takeLatch_eq]
@[simp] theorem takeLatch_ready (s : State) : (takeLatch s).ready = false := by rw [takeLatch_eq]
@[simp] theorem takeLatch_dbg (s : State) : (takeLatch s).dbg = s.dbg := by rw [takeLatch_eq]
@[simp] theorem takeLatch_phase (s : State) : (takeLatch s).phase = s.phase := by rw [takeLatch_eq]
@[simp] theorem takeLatch_front (s : State) : (takeLatch s).front = s.front := by rw [takeLatch_eq]
@[simp] theorem takeLatch_cfg (s : State) : (takeLatch s).cfg = s.cfg := by rw [takeLatch_eq]
@[simp] theorem takeLatch_inputs (s : State) : (takeLatch s).inputs = s.inputs := by rw [takeLatch_eq]
@[simp] theorem takeLatch_takes (s : State) : (takeLatch s).takes = s.takes ++ [takeResult s] := by rw [takeLatch_eq]
@[simp] theorem takeLatch_draws (s : State) : (takeLatch s).draws = s.draws := by rw [takeLatch_eq]

/-! ### Runs -/

/-- The state one operation leaves. -/
def after (i : Instr) (s : State) : State :=
  match i with
  | .edge lvl => recordBit lvl s
  | .tick => frameTick s
  | .take => takeLatch s
  | .reset => resetBlock s

/-- The state a run leaves, every operation completing (R105). -/
def afterAll (ops : List Instr) (s : State) : State := ops.foldl (fun s i => after i s) s

theorem exec_eq_after (i : Instr) (s : State) : exec i s = .next (after i s) := by cases i <;> rfl

theorem runOps_eq_afterAll (ops : List Instr) (s : State) : runOps ops s = .next (afterAll ops s) := by
  induction ops generalizing s with
  | nil => rfl
  | cons i is ih => simp only [runOps, exec_eq_after, ih]; rfl

@[simp] theorem afterAll_nil (s : State) : afterAll [] s = s := rfl
@[simp] theorem afterAll_cons (i : Instr) (is : List Instr) (s : State) :
    afterAll (i :: is) s = afterAll is (after i s) := rfl
theorem afterAll_append (xs ys : List Instr) (s : State) :
    afterAll (xs ++ ys) s = afterAll ys (afterAll xs s) := List.foldl_append ..

@[simp] theorem after_edge (lvl : Bool) (s : State) : after (.edge lvl) s = recordBit lvl s := rfl
@[simp] theorem after_tick (s : State) : after .tick s = frameTick s := rfl
@[simp] theorem after_take (s : State) : after .take s = takeLatch s := rfl
@[simp] theorem after_reset (s : State) : after .reset s = resetBlock s := rfl

@[simp] theorem after_cfg (i : Instr) (s : State) : (after i s).cfg = s.cfg := by cases i <;> simp
@[simp] theorem after_inputs (i : Instr) (s : State) : (after i s).inputs = s.inputs := by cases i <;> simp
@[simp] theorem after_front (i : Instr) (s : State) : (after i s).front = s.front := by cases i <;> simp

@[simp] theorem afterAll_cfg (ops : List Instr) (s : State) : (afterAll ops s).cfg = s.cfg := by
  induction ops generalizing s with
  | nil => rfl
  | cons i is ih => simp [ih]
@[simp] theorem afterAll_inputs (ops : List Instr) (s : State) : (afterAll ops s).inputs = s.inputs := by
  induction ops generalizing s with
  | nil => rfl
  | cons i is ih => simp [ih]
@[simp] theorem afterAll_front (ops : List Instr) (s : State) : (afterAll ops s).front = s.front := by
  induction ops generalizing s with
  | nil => rfl
  | cons i is ih => simp [ih]

end Sys2Proof.Machine
end

