-- ==== Sys2Proof/Laws/Burst.lean ====
section
/-!
SUPPORT. What the accumulator holds after the EDGEs of a burst, and how each operation moves it.
-/

namespace Sys2Proof.Machine

open Sys2Proof.Safety

theorem testBit_natOfBits (bs : List Bool) (k : Nat) : (natOfBits bs).testBit k = bs.getD k false := by
  induction bs generalizing k with
  | nil => simp [natOfBits]
  | cons b bs ih =>
    cases k with
    | zero => cases b <;> simp [natOfBits, Nat.testBit_zero]
    | succ k =>
      rw [Nat.testBit_succ, natOfBits, show (b.toNat + 2 * natOfBits bs) / 2 = natOfBits bs by
        cases b <;> (simp; try omega),
        ih]
      simp

/-- Bit `k` of the packet is the `k`-th sampled bit (R43). -/
theorem getLsbD_packetOf (invert : Bool) (lvls : List Bool) (k : Nat) (h : k < 24) :
    (packetOf invert lvls).getLsbD k = (lvls.map fun lvl => xor lvl invert).getD k false := by
  rw [packetOf, BitVec.getLsbD_ofNat, testBit_natOfBits]; simp [h]

/-- The accumulator holds exactly the EDGEs `lvls` of a burst (R35, R36, R43). -/
structure Holds (s : State) (lvls : List Bool) : Prop where
  count : s.bitsRead = min lvls.length s.cfg.sat
  mask : s.nextBitMask = if lvls.length < 24 then 1#24 <<< lvls.length else 0#24
  bits : ∀ k, k < 24 → s.buffer.getLsbD k = (lvls.map fun lvl => xor lvl s.cfg.invert).getD k false

theorem holds_nil {s : State} (h : EmptyAccumulator s) : Holds s [] := by
  obtain ⟨hb, hn, hm⟩ := h
  exact ⟨by simp [hn], by simp [hm], by simp [hb]⟩

/-- The next mask, shifted past bit 23 to nothing (R71). -/
theorem shift_mask (n : Nat) :
    (if n < 24 then 1#24 <<< n else 0#24) <<< 1 = if n + 1 < 24 then 1#24 <<< (n + 1) else 0#24 := by
  split
  · rename_i h
    by_cases h' : n + 1 < 24
    · rw [if_pos h', BitVec.shiftLeft_add]
    · have : n = 23 := by omega
      subst this; rfl
  · rw [if_neg (by omega)]; rfl

theorem getLsbD_mask (n k : Nat) (hk : k < 24) :
    (if n < 24 then 1#24 <<< n else 0#24).getLsbD k = decide (k = n) := by
  split
  · rw [BitVec.getLsbD_shiftLeft, BitVec.getLsbD_one]
    by_cases h : k = n
    · subst h; simp [hk]
    · rcases Nat.lt_or_gt_of_ne h with h' | h' <;> (simp [h, h', hk]; try omega)
  · have : k ≠ n := by omega
    simp [this]

/-- EDGE adds one bit to what is held (R67). -/
theorem Holds.recordBit {s : State} {lvls : List Bool} (h : Holds s lvls) (lvl : Bool) :
    Holds (recordBit lvl s) (lvls ++ [lvl]) := by
  refine ⟨?_, ?_, ?_⟩
  · rw [recordBit_bitsRead, recordBit_cfg, h.count]; simp only [List.length_append, List.length_singleton]; split <;> omega
  · rw [recordBit_nextBitMask, h.mask, shift_mask, List.length_append, List.length_singleton]
  · intro k hk
    have hm : s.nextBitMask.getLsbD k = decide (k = lvls.length) := by rw [h.mask, getLsbD_mask _ _ hk]
    rw [recordBit_buffer, recordBit_cfg]
    rcases Nat.lt_trichotomy k lvls.length with hlt | heq | hgt
    · have : (s.buffer ||| s.nextBitMask).getLsbD k = s.buffer.getLsbD k := by
        rw [BitVec.getLsbD_or, hm]; simp [show k ≠ lvls.length by omega]
      have hg : ((lvls ++ [lvl]).map fun l => xor l s.cfg.invert).getD k false
          = (lvls.map fun l => xor l s.cfg.invert).getD k false := by
        rw [List.map_append, List.getD_append _ _ _ _ (by simpa using hlt)]
      rw [hg, ← h.bits k hk]; split <;> simp [this]
    · have h0 : s.buffer.getLsbD k = false := by
        rw [h.bits k hk]; exact List.getD_eq_default _ _ (by simp [heq])
      have hg : ((lvls ++ [lvl]).map fun l => xor l s.cfg.invert).getD k false = xor lvl s.cfg.invert := by
        subst heq; simp
      rw [hg]
      split
      · rename_i hx; rw [BitVec.getLsbD_or, hm, h0]; simp [heq, hx]
      · rename_i hx; rw [h0]; simpa using hx
    · have h0 : s.buffer.getLsbD k = false := by
        rw [h.bits k hk]; exact List.getD_eq_default _ _ (by simp; omega)
      have hg : ((lvls ++ [lvl]).map fun l => xor l s.cfg.invert).getD k false = false :=
        List.getD_eq_default _ _ (by simp; omega)
      rw [hg]
      split
      · rw [BitVec.getLsbD_or, hm, h0]; simp; omega
      · exact h0

/-- With all 24 bits held the buffer is the packet (R36). -/
theorem Holds.buffer_eq {s : State} {lvls : List Bool} (h : Holds s lvls) : s.buffer = packetOf s.cfg.invert lvls := by
  apply BitVec.eq_of_getLsbD_eq
  intro k hk
  rw [h.bits k hk, getLsbD_packetOf _ _ _ hk]

/-- Whatever keeps the accumulator and the configuration keeps what is held. -/
theorem Holds.congr {s t : State} {lvls : List Bool} (h : Holds s lvls) (hb : t.buffer = s.buffer)
    (hn : t.bitsRead = s.bitsRead) (hm : t.nextBitMask = s.nextBitMask) (hc : t.cfg = s.cfg) : Holds t lvls :=
  ⟨by rw [hn, hc]; exact h.count, by rw [hm]; exact h.mask, by rw [hb, hc]; exact h.bits⟩

theorem levels_append (xs ys : List Instr) : levels (xs ++ ys) = levels xs ++ levels ys := by
  induction xs with
  | nil => rfl
  | cons i is ih => cases i <;> simp [levels, ih]

@[simp] theorem levels_map_edge (lvls : List Bool) : levels (lvls.map Instr.edge) = lvls := by
  induction lvls with
  | nil => rfl
  | cons l ls ih => simp [levels, ih]

end Sys2Proof.Machine
end

