-- ==== Sys2Proof/Laws/Steps.lean ====
section
/-!
SUPPORT. What one step, one clk cycle and a run of steps do, said once.
-/

namespace Sys2Proof.Machine

open Sys2Proof.Safety

/-! ### The output registers of a cycle -/

@[simp] theorem presentTake_cfg (r : TakeResult) (s : State) : (presentTake r s).cfg = s.cfg := by
  unfold presentTake; split <;> rfl
@[simp] theorem presentTake_inputs (r : TakeResult) (s : State) : (presentTake r s).inputs = s.inputs := by
  unfold presentTake; split <;> rfl
theorem presentTake_eq (r : TakeResult) (s : State) :
    presentTake r s = { s with front := (presentTake r s).front } := by
  unfold presentTake; split <;> rfl

/-- Presenting a result writes only the realisation's registers. -/
theorem presentResult_eq (ops : List Instr) (s : State) :
    presentResult ops s = { s with front := (presentResult ops s).front } := by
  unfold presentResult
  split
  · split
    · exact presentTake_eq ..
    · rfl
  · rfl

@[simp] theorem presentResult_cfg (ops : List Instr) (s : State) : (presentResult ops s).cfg = s.cfg := by
  rw [presentResult_eq]
@[simp] theorem presentResult_inputs (ops : List Instr) (s : State) : (presentResult ops s).inputs = s.inputs := by
  rw [presentResult_eq]
@[simp] theorem presentResult_takes (ops : List Instr) (s : State) : (presentResult ops s).takes = s.takes := by
  rw [presentResult_eq]

/-- The synchronisers are not written when a result is presented. -/
theorem presentResult_sync (ops : List Instr) (s : State) :
    (presentResult ops s).front.sclkSync = s.front.sclkSync ∧
      (presentResult ops s).front.sdataSync = s.front.sdataSync := by
  unfold presentResult presentTake
  split
  · split
    · split <;> exact ⟨rfl, rfl⟩
    · exact ⟨rfl, rfl⟩
  · exact ⟨rfl, rfl⟩

/-- A clk cycle with legal parameters completes (R105, R138). -/
theorem execCycle_next (p : Pins) (s : State) (h : s.cfg.checkCycle = none) :
    execCycle p s =
      .next (presentResult (coincidentOrder (cycleEvents p s))
        (afterAll (coincidentOrder (cycleEvents p s)) (deliverPending (shiftLines p s)))) := by
  simp [execCycle, h, runOps_eq_afterAll]

/-- A clk cycle with illegal parameters does not. -/
theorem execCycle_refused (p : Pins) (s : State) (why : ConfigError) (h : s.cfg.checkCycle = some why) :
    execCycle p s = .refused (.illegalConfiguration why) := by
  simp [execCycle, h]

/-! ### Operations and fields they do not touch -/

/-- An operation does not read the supplied inputs. -/
theorem after_with_inputs (i : Instr) (s : State) (x : List Input) :
    after i { s with inputs := x } = { after i s with inputs := x } := by
  cases i with
  | edge lvl => rfl
  | tick => simp only [after_tick, frameTick_eq]; split <;> [rfl; (split <;> rfl)]
  | take => simp only [after_take, takeLatch_eq]; rfl
  | reset => rfl

/-- An operation does not read the realisation's registers. -/
theorem after_with_front (i : Instr) (s : State) (x : FrontEnd) :
    after i { s with front := x } = { after i s with front := x } := by
  cases i with
  | edge lvl => rfl
  | tick => simp only [after_tick, frameTick_eq]; split <;> [rfl; (split <;> rfl)]
  | take => simp only [after_take, takeLatch_eq]; rfl
  | reset => rfl

theorem afterAll_with_front (ops : List Instr) (s : State) (x : FrontEnd) :
    afterAll ops { s with front := x } = { afterAll ops s with front := x } := by
  induction ops generalizing s with
  | nil => rfl
  | cons i is ih => rw [afterAll_cons, after_with_front, ih]; rfl

/-! ### Steps -/

theorem step_illegal {s : State} {why : ConfigError} (h : s.cfg.check = some why) :
    step s = .refused (.illegalConfiguration why) := by
  simp [step, applyNext, h]

theorem step_nil {s : State} (h : s.cfg.check = none) (hi : s.inputs = []) : step s = .next s := by
  simp [step, applyNext, h, hi]

theorem step_cons {s : State} {i : Input} {rest : List Input} (h : s.cfg.check = none) (hi : s.inputs = i :: rest) :
    step s = applyInput i { s with inputs := rest } := by
  simp [step, applyNext, h, hi]

/-- The same, for a state whose inputs are written out. -/
theorem step_supplied {s : State} (h : s.cfg.check = none) (i : Input) (rest : List Input) :
    step { s with inputs := i :: rest } = applyInput i { s with inputs := rest } :=
  step_cons (s := { s with inputs := i :: rest }) h rfl

/-- Everything a step that answers a next state can have done. -/
theorem step_next_cases {s t : State} (h : step s = .next t) :
    s.cfg.check = none ∧
      ((s.inputs = [] ∧ t = s) ∨
        ∃ (x : Input) (rest : List Input), s.inputs = x :: rest ∧
          ((∃ w i, x = .word w ∧ decode w = .ok i ∧ t = after i { s with inputs := rest }) ∨
            (∃ p, x = .cycle p ∧ s.cfg.checkCycle = none ∧
              t = presentResult (coincidentOrder (cycleEvents p { s with inputs := rest }))
                (afterAll (coincidentOrder (cycleEvents p { s with inputs := rest }))
                  (deliverPending (shiftLines p { s with inputs := rest })))) ∨
            (∃ c, x = .configure c ∧ c = s.cfg ∧ t = { s with inputs := rest }))) := by
  cases hc : s.cfg.check with
  | some why => rw [step_illegal hc] at h; cases h
  | none =>
    refine ⟨rfl, ?_⟩
    cases hi : s.inputs with
    | nil => rw [step_nil hc hi] at h; cases h; exact .inl ⟨rfl, rfl⟩
    | cons x rest =>
      rw [step_cons hc hi] at h
      refine .inr ⟨x, rest, rfl, ?_⟩
      cases x with
      | word w =>
        simp only [applyInput, applyWord] at h
        split at h
        · rename_i i hd
          rw [exec_eq_after] at h; cases h
          exact .inl ⟨w, i, rfl, hd, rfl⟩
        · cases h
      | cycle p =>
        cases hcc : s.cfg.checkCycle with
        | some why => exact nomatch (execCycle_refused p { s with inputs := rest } why hcc).symm.trans h
        | none =>
          have e := (execCycle_next p { s with inputs := rest } hcc).symm.trans h
          injection e with e
          exact .inr (.inl ⟨p, rfl, rfl, e.symm⟩)
      | configure c =>
        simp only [applyInput, applyConfigure] at h
        split at h
        · rename_i hcf; cases h; exact .inr (.inr ⟨c, rfl, hcf, rfl⟩)
        · cases h

/-! ### Runs of steps -/

theorem run_succ (M : Host.Core) (k : Nat) (s : M.State) :
    M.run (k + 1) s =
      match M.step s with
      | .next s' => M.run k s'
      | .fault r => .fault r
      | .refused r => .refused r := rfl

theorem run_of_next (M : Host.Core) (k : Nat) {s t : M.State} (h : M.step s = .next t) : M.run (k + 1) s = M.run k t := by
  rw [run_succ, h]

theorem core_run_zero (s : State) : Host.Core.run Sys2Proof.core 0 s = .next s := rfl

/-- A run of steps begins with its first step. -/
theorem core_run_succ {s t : State} (h : step s = .next t) (k : Nat) :
    Host.Core.run Sys2Proof.core (k + 1) s = Host.Core.run Sys2Proof.core k t :=
  run_of_next Sys2Proof.core k h

/-- A refused step ends the run: no later step clears it (R108). -/
theorem core_run_refused {s : State} {r : Refusal} (h : step s = .refused r) (k : Nat) :
    Host.Core.run Sys2Proof.core (k + 1) s = .refused r := by
  have h' : Sys2Proof.core.step s = .refused r := h
  simp only [Host.Core.run, h']

end Sys2Proof.Machine
end

