-- ==== Sys2Proof/Laws/Envelope.lean ====
section
/-!
SUPPORT. ENV-INTRA as a walk over the operations with one flag, and what such a walk does to the framer.
-/

namespace Sys2Proof.Machine

open Sys2Proof.Safety

/-- No TICK comes while the flag is down; an EDGE raises it, a TICK lowers it. -/
def spaced : Bool → List Instr → Bool
  | _, [] => true
  | _, .edge _ :: is => spaced true is
  | f, .tick :: is => f && spaced false is
  | f, .take :: is => spaced f is
  | f, .reset :: is => spaced f is

/-- The flag after the operations. -/
def flagAfter : Bool → List Instr → Bool
  | f, [] => f
  | _, .edge _ :: is => flagAfter true is
  | _, .tick :: is => flagAfter false is
  | f, .take :: is => flagAfter f is
  | f, .reset :: is => flagAfter f is

theorem spaced_append (f : Bool) (xs ys : List Instr) :
    spaced f (xs ++ ys) = (spaced f xs && spaced (flagAfter f xs) ys) := by
  induction xs generalizing f with
  | nil => simp [spaced, flagAfter]
  | cons i is ih => cases i <;> simp [spaced, flagAfter, ih, Bool.and_assoc]

theorem flagAfter_append (f : Bool) (xs ys : List Instr) : flagAfter f (xs ++ ys) = flagAfter (flagAfter f xs) ys := by
  induction xs generalizing f with
  | nil => rfl
  | cons i is ih => cases i <;> simp [flagAfter, ih]

theorem spaced_takes (f : Bool) {ts : List Instr} (h : ∀ i ∈ ts, i = Instr.take) :
    spaced f ts = true ∧ flagAfter f ts = f ∧ levels ts = [] := by
  induction ts with
  | nil => exact ⟨rfl, rfl, rfl⟩
  | cons i is ih =>
    obtain rfl := h i (by simp)
    exact ih fun j hj => h j (by simp [hj])

theorem envIntra_tail {i : Instr} {is : List Instr} (h : EnvIntra (i :: is)) : EnvIntra is :=
  fun a b c e => h (i :: a) b c (by rw [e]; rfl)

/-- Taking an operation that is neither EDGE nor TICK out from behind a TICK keeps ENV-INTRA. -/
theorem envIntra_skip {i : Instr} {is : List Instr} (hi : ∀ lvl, i ≠ Instr.edge lvl) (ht : i ≠ Instr.tick)
    (h : EnvIntra (Instr.tick :: i :: is)) : EnvIntra (Instr.tick :: is) := by
  intro a b c e hb
  cases a with
  | nil =>
    rw [List.nil_append, List.cons.injEq] at e
    obtain ⟨lvl, hl⟩ := h [] (i :: b) c (by rw [e.2]; rfl) (by simp [hb, Ne.symm ht])
    rcases List.mem_cons.1 hl with hl | hl
    · exact absurd hl.symm (hi lvl)
    · exact ⟨lvl, hl⟩
  | cons x a =>
    rw [List.cons_append, List.cons.injEq] at e
    exact h (Instr.tick :: i :: a) b c (by rw [e.2]; rfl) hb

/-- ENV-INTRA as a walk: from the start, and from just after a TICK. -/
theorem envIntra_spaced (ops : List Instr) :
    (EnvIntra ops → spaced true ops = true) ∧ (EnvIntra (Instr.tick :: ops) → spaced false ops = true) := by
  induction ops with
  | nil => exact ⟨fun _ => rfl, fun _ => rfl⟩
  | cons i is ih =>
    cases i with
    | edge lvl => exact ⟨fun h => ih.1 (envIntra_tail h), fun h => ih.1 (envIntra_tail (envIntra_tail h))⟩
    | tick =>
      refine ⟨fun h => ih.2 h, fun h => ?_⟩
      obtain ⟨lvl, hl⟩ := h [] [] is rfl (by simp)
      simp at hl
    | take => exact ⟨fun h => ih.1 (envIntra_tail h), fun h => ih.2 (envIntra_skip (by simp) (by simp) h)⟩
    | reset => exact ⟨fun h => ih.1 (envIntra_tail h), fun h => ih.2 (envIntra_skip (by simp) (by simp) h)⟩

theorem flagAfter_plain {ops : List Instr} (ht : Instr.tick ∉ ops) (he : ∀ lvl, Instr.edge lvl ∉ ops) (f : Bool) :
    flagAfter f ops = f := by
  induction ops with
  | nil => rfl
  | cons i is ih =>
    have ht' : Instr.tick ∉ is := fun h => ht (by simp [h])
    have he' : ∀ lvl, Instr.edge lvl ∉ is := fun lvl h => he lvl (by simp [h])
    cases i with
    | edge lvl => exact absurd (by simp) (he lvl)
    | tick => exact absurd (by simp) ht
    | take => exact ih ht' he'
    | reset => exact ih ht' he'

/-- A spaced walk meets ENV-INTRA. -/
theorem envIntra_of_spaced {f : Bool} {ops : List Instr} (h : spaced f ops = true) : EnvIntra ops := by
  intro before between after e ht
  by_contra hc
  rw [e, spaced_append, Bool.and_eq_true] at h
  have h2 : spaced false (between ++ Instr.tick :: after) = true := by
    have := h.2; simp only [spaced, Bool.and_eq_true] at this; exact this.2
  rw [spaced_append, flagAfter_plain ht (fun lvl hl => hc ⟨lvl, hl⟩)] at h2
  simp [spaced] at h2

theorem body_spaced {body : List Instr} (h : TransmissionBody body) : spaced true body = true :=
  (envIntra_spaced body).1 h.intra

theorem body_flag {body : List Instr} (h : TransmissionBody body) (f : Bool) : flagAfter f body = true := by
  obtain ⟨lvl, rest, e⟩ := h.lastEdge
  rw [e, flagAfter_append]; rfl

/-- Inside a burst: what is held, and where the snapshot stands (R82, R87 (b)). -/
structure InBurst (f : Bool) (lvls : List Bool) (s : State) : Prop where
  holds : Holds s lvls
  started : lvls ≠ []
  snapshot : if f = true then s.lastBitsRead < lvls.length else s.lastBitsRead = lvls.length

/-- A run that keeps its TICKs spaced stays inside the burst, and under GAP publishes nothing. -/
theorem InBurst.run {f : Bool} {lvls : List Bool} {s : State} (h : InBurst f lvls s) (ops : List Instr)
    (hg : s.cfg.publishAt = .gap) (hsp : spaced f ops = true) (hr : Instr.reset ∉ ops)
    (hsat : lvls.length + (levels ops).length ≤ s.cfg.sat) :
    InBurst (flagAfter f ops) (lvls ++ levels ops) (afterAll ops s) ∧ (afterAll ops s).pkt = s.pkt ∧
      ((afterAll ops s).ready = true → s.ready = true) := by
  induction ops generalizing f lvls s with
  | nil => exact ⟨by simpa [flagAfter, levels] using h, rfl, id⟩
  | cons i is ih =>
    have hr' : Instr.reset ∉ is := fun hx => hr (by simp [hx])
    obtain ⟨hh, hs, hl⟩ := h
    cases i with
    | edge lvl =>
      have h1 : InBurst true (lvls ++ [lvl]) (recordBit lvl s) := by
        refine ⟨hh.recordBit lvl, by simp, ?_⟩
        rw [if_pos rfl, recordBit_lastBitsRead, List.length_append, List.length_singleton]
        split at hl <;> omega
      have := ih h1 (by simpa) hsp hr' (by
        simp only [levels, List.length_cons, List.length_append, List.length_nil, recordBit_cfg] at hsat ⊢; omega)
      simpa [levels, flagAfter] using this
    | tick =>
      obtain ⟨hf, hsp⟩ : f = true ∧ spaced false is = true := by simpa [spaced] using hsp
      subst hf
      have hn : s.bitsRead = lvls.length := by rw [hh.count]; omega
      have hpos : 0 < lvls.length := List.length_pos_of_ne_nil hs
      rw [if_pos rfl] at hl
      have ht : frameTick s = { s with lastBitsRead := s.bitsRead, dbg := true, phase := .accumulating } := by
        rw [frameTick_eq, if_neg (by omega), if_neg (by omega)]; simp [hg]
      have h1 : InBurst false lvls (frameTick s) := by
        rw [ht]
        exact ⟨hh.congr rfl rfl rfl rfl, hs, by rw [if_neg (by simp)]; exact hn⟩
      have := ih h1 (by simpa) hsp hr' (by simpa [levels] using hsat)
      refine ⟨this.1, this.2.1.trans ?_, fun hx => ?_⟩
      · rw [ht]
      · have := this.2.2 hx; rw [ht] at this; exact this
    | take =>
      have h1 : InBurst f lvls (takeLatch s) :=
        ⟨hh.congr (by simp) (by simp) (by simp) (by simp), hs, by rw [takeLatch_lastBitsRead]; exact hl⟩
      have := ih h1 (by simpa) hsp hr' (by simpa [levels] using hsat)
      refine ⟨this.1, this.2.1.trans (by simp), fun hx => ?_⟩
      have := this.2.2 hx; simp at this
    | reset => simp at hr

/-- Where a burst begins: the framer at rest and a first EDGE (R141). -/
theorem InBurst.start {s : State} (h : AtRest s) (lvl : Bool) : InBurst true [lvl] (recordBit lvl s) :=
  ⟨by simpa using (holds_nil h.1).recordBit lvl, by simp, by rw [if_pos rfl, recordBit_lastBitsRead, h.2]; simp⟩

/-- A transmission's whole body, from rest. -/
theorem body_inBurst {body : List Instr} (h : TransmissionBody body) {s : State} (h0 : AtRest s)
    (hg : s.cfg.publishAt = .gap) (hsat : (levels body).length ≤ s.cfg.sat) :
    InBurst true (levels body) (afterAll body s) ∧ (afterAll body s).pkt = s.pkt ∧
      ((afterAll body s).ready = true → s.ready = true) := by
  have hf := body_flag h true
  have hsp := body_spaced h
  obtain ⟨lvl, rest, e⟩ := h.firstEdge
  have hr := h.noReset
  subst e
  have := (InBurst.start h0 lvl).run rest (by simpa) hsp (fun hx => hr (by simp [hx])) (by
    simp only [levels, List.length_cons, List.length_nil, recordBit_cfg] at hsat ⊢; omega)
  rw [show flagAfter true rest = true from hf] at this
  simpa [levels] using this

/-- A TICK inside a burst with the flag up is in progress (R81). -/
theorem InBurst.tick_inProgress {lvls : List Bool} {s : State} (h : InBurst true lvls s) (hsat : lvls.length ≤ s.cfg.sat) :
    s.bitsRead ≠ 0 ∧ s.bitsRead ≠ s.lastBitsRead := by
  have hn : s.bitsRead = lvls.length := by rw [h.holds.count]; omega
  have hpos : 0 < lvls.length := List.length_pos_of_ne_nil h.started
  have hl := h.snapshot; rw [if_pos rfl] at hl
  omega

/-- A TICK inside a burst with the flag down detects the gap (R80). -/
theorem InBurst.tick_gap {lvls : List Bool} {s : State} (h : InBurst false lvls s) (hsat : lvls.length ≤ s.cfg.sat) :
    s.bitsRead ≠ 0 ∧ s.bitsRead = s.lastBitsRead ∧ s.bitsRead = lvls.length := by
  have hn : s.bitsRead = lvls.length := by rw [h.holds.count]; omega
  have hpos : 0 < lvls.length := List.length_pos_of_ne_nil h.started
  have hl := h.snapshot; rw [if_neg (by simp)] at hl
  omega

end Sys2Proof.Machine
end

