-- ==== Sys2Proof/Laws/PerInstr.lean ====
section
/-!
SUPPORT. Statements made per instruction, one lemma per constructor of Instr.
-/

namespace Sys2Proof.Laws.RoundTrip

/-- Decoding the word of a well-formed operation gives it back (R56 to R60, R66). -/
def Statement (i : Instr) : Prop := i.wf = true → decode (encode i) = .ok i

theorem edge (lvl : Bool) : Statement (.edge lvl) := fun _ => by cases lvl <;> rfl
theorem tick : Statement .tick := fun _ => rfl
theorem take : Statement .take := fun _ => rfl
theorem reset : Statement .reset := fun _ => rfl

end Sys2Proof.Laws.RoundTrip
end

