-- ==== Sys2Proof/Tests/Slice0.lean ====
section
/-!
SUPPORT. Tests against the words and vectors of the spec (30_encoding.md, 95_test_vectors.md), the WellFormed smoke tests, and for
each statement with hypotheses a witness that meets them. Expected values are the spec's own.
-/

namespace Sys2Proof.Tests

open Sys2Proof.Machine Sys2Proof.Safety

/-! ### Helpers -/

/-- The block's tuple as 95_test_vectors.md writes it (R20). -/
structure Block where
  buffer : RawPacket
  bitsRead : Nat
  nextBitMask : RawPacket
  lastBitsRead : Nat
  pkt : RawPacket
  ready : Bool
  dbg : Bool
  phase : Phase
  deriving DecidableEq, Repr

def block (s : State) : Block :=
  ⟨s.buffer, s.bitsRead, s.nextBitMask, s.lastBitsRead, s.pkt, s.ready, s.dbg, s.phase⟩

def stateOf (b : Block) : State :=
  { State.reset with
    buffer := b.buffer, bitsRead := b.bitsRead, nextBitMask := b.nextBitMask, lastBitsRead := b.lastBitsRead, pkt := b.pkt
    ready := b.ready, dbg := b.dbg, phase := b.phase }

def blockAfter (i : Instr) (b : Block) : Option Block := (finalState (exec i (stateOf b))).map block

/-- The same under another configuration. -/
def blockUnder (c : Config) (i : Instr) (b : Block) : Option Block :=
  (finalState (exec i { stateOf b with cfg := c })).map block

def accumulatorUnder (c : Config) (i : Instr) (a : RawPacket × Nat × RawPacket) : Option (RawPacket × Nat × RawPacket) :=
  (blockUnder c i ⟨a.1, a.2.1, a.2.2, 0, 0, false, false, .idle⟩).map fun b => (b.buffer, b.bitsRead, b.nextBitMask)

def inverted : Config := { Config.standard with invert := true }
def countPolicy : Config := { Config.standard with publishAt := .count }
def fiveBit : Config := { Config.standard with cntWidth := 5 }

/-! ### WellFormed: each check refuses an ill-formed term -/

theorem test_check_packet_bit_count : ({ Config.standard with packetBitCount := 16 }).check = some .packetBitCount := by decide
theorem test_check_cnt_width : ({ Config.standard with cntWidth := 4 }).check = some .cntWidth := by decide
theorem test_check_overrun_policy : ({ Config.standard with overrunPolicy := .hardFail }).check = some .overrunPolicy := by decide
theorem test_check_sync_stages : ({ Config.standard with syncStages := 1 }).checkCycle = some .syncStages := by decide
theorem test_check_take_latency : ({ Config.standard with takeLatency := 2 }).checkCycle = some .takeLatency := by decide
theorem test_standard_is_legal : Config.standard.legal = true ∧ fiveBit.legal = true ∧ Config.standard.checkCycle = none := by
  decide
theorem test_operations_well_formed : ∀ lvl : Bool, (Instr.edge lvl).wf = true ∧ Instr.tick.wf = true ∧ Instr.take.wf = true ∧
    Instr.reset.wf = true := by decide

/-! ### Decoding: words written out from R57 to R61 -/

theorem test_decode_edge_low : decode 0b0010#4 = .ok (.edge false) := rfl
theorem test_decode_edge_high : decode 0b0011#4 = .ok (.edge true) := rfl
theorem test_decode_tick : decode 0b0100#4 = .ok .tick := rfl
theorem test_decode_take : decode 0b0110#4 = .ok .take := rfl
theorem test_decode_reset : decode 0b1000#4 = .ok .reset := rfl
/-- Vector table 2.1: the eleven reserved words. -/
theorem test_decode_reserved :
    ∀ w ∈ [0x0#4, 0x1#4, 0x5#4, 0x7#4, 0x9#4, 0xA#4, 0xB#4, 0xC#4, 0xD#4, 0xE#4, 0xF#4], decodeTableWord 4 w.toNat = none := by
  decide
theorem test_table_word_reads_the_low_nibble :
    decodeTableWord 8 3 = some (.edge true) ∧ decodeTableWord 4 8 = some .reset ∧ decodeTableWord 8 18 = none := by decide
/-- The next step runs the placed word: R58 on the reset state (vector T1). -/
theorem test_placed_word_runs : (finalState (step (State.reset.withFetchWord 8 4))).map (fun s => (block s, s.inputs)) =
    some (block State.reset, []) := by decide

/-! ### EDGE -/

/-- Vectors E1 to E4 (both polarities) and E5. -/
theorem test_edge_polarity_and_insertion :
    accumulatorUnder Config.standard (.edge true) (0x000000, 0, 0x000001) = some (0x000001, 1, 0x000002) ∧
    accumulatorUnder Config.standard (.edge false) (0x000000, 0, 0x000001) = some (0x000000, 1, 0x000002) ∧
    accumulatorUnder inverted (.edge false) (0x000000, 0, 0x000001) = some (0x000001, 1, 0x000002) ∧
    accumulatorUnder inverted (.edge true) (0x000000, 0, 0x000001) = some (0x000000, 1, 0x000002) ∧
    accumulatorUnder Config.standard (.edge true) (0x00004E, 8, 0x000100) = some (0x00014E, 9, 0x000200) := by decide

/-- Vectors E6, E8, E10, E11, E13, E14: the 24th, the 25th, saturation, and OR never clears. -/
theorem test_edge_limits :
    accumulatorUnder Config.standard (.edge true) (0x10004E, 23, 0x800000) = some (0x90004E, 24, 0x000000) ∧
    accumulatorUnder Config.standard (.edge true) (0x90004E, 24, 0x000000) = some (0x90004E, 25, 0x000000) ∧
    accumulatorUnder Config.standard (.edge true) (0x90004E, 65534, 0x000000) = some (0x90004E, 65535, 0x000000) ∧
    accumulatorUnder Config.standard (.edge true) (0x90004E, 65535, 0x000000) = some (0x90004E, 65535, 0x000000) ∧
    accumulatorUnder Config.standard (.edge false) (0x000003, 1, 0x000002) = some (0x000003, 2, 0x000004) ∧
    accumulatorUnder fiveBit (.edge true) (0xFFFFFF, 31, 0x000000) = some (0xFFFFFF, 31, 0x000000) := by decide

/-! ### TICK -/

/-- Vectors T2, T4, T5, T6, T8, T10 (GAP). -/
theorem test_tick_gap_policy :
    blockAfter .tick ⟨0x000000, 0, 0x000001, 0, 0x90004E, true, true, .gapDetected⟩ =
      some ⟨0x000000, 0, 0x000001, 0, 0x90004E, true, false, .idle⟩ ∧
    blockAfter .tick ⟨0x00000E, 5, 0x000020, 0, 0x000000, false, false, .idle⟩ =
      some ⟨0x00000E, 5, 0x000020, 5, 0x000000, false, true, .accumulating⟩ ∧
    blockAfter .tick ⟨0x00000E, 5, 0x000020, 5, 0x000000, false, true, .accumulating⟩ =
      some ⟨0x000000, 0, 0x000001, 0, 0x000000, false, true, .gapDetected⟩ ∧
    blockAfter .tick ⟨0x90004E, 24, 0x000000, 16, 0x000000, false, true, .accumulating⟩ =
      some ⟨0x90004E, 24, 0x000000, 24, 0x000000, false, true, .accumulating⟩ ∧
    blockAfter .tick ⟨0x90004E, 24, 0x000000, 24, 0x000000, false, true, .accumulating⟩ =
      some ⟨0x000000, 0, 0x000001, 0, 0x90004E, true, true, .gapDetected⟩ ∧
    blockAfter .tick ⟨0x100063, 24, 0x000000, 24, 0x90004E, true, true, .accumulating⟩ =
      some ⟨0x000000, 0, 0x000001, 0, 0x100063, true, true, .gapDetected⟩ := by decide

/-- Vectors T7, T9, T12 (COUNT) and T14 (saturation, GAP). -/
theorem test_tick_count_policy_and_saturation :
    blockUnder countPolicy .tick ⟨0x90004E, 24, 0x000000, 16, 0x000000, false, true, .accumulating⟩ =
      some ⟨0x90004E, 24, 0x000000, 24, 0x90004E, true, true, .accumulating⟩ ∧
    blockUnder countPolicy .tick ⟨0x90004E, 24, 0x000000, 24, 0x000000, false, true, .accumulating⟩ =
      some ⟨0x000000, 0, 0x000001, 0, 0x90004E, true, true, .gapDetected⟩ ∧
    blockUnder countPolicy .tick ⟨0x90004E, 25, 0x000000, 24, 0x000000, false, true, .accumulating⟩ =
      some ⟨0x90004E, 25, 0x000000, 25, 0x000000, false, true, .accumulating⟩ ∧
    blockAfter .tick ⟨0xFFFFFF, 65535, 0x000000, 65535, 0x000000, false, true, .accumulating⟩ =
      some ⟨0x000000, 0, 0x000001, 0, 0x000000, false, true, .gapDetected⟩ := by decide

/-! ### TAKE, the decoder and its floating-point form -/

/-- Vector K1: the packet with its measurement, `ready` cleared and `pkt` kept. -/
theorem test_take_ready :
    (finalState (exec .take (stateOf ⟨0x000000, 0, 0x000001, 0, 0x90004E, true, false, .idle⟩))).map (fun s => (block s, s.takes)) =
      some (⟨0x000000, 0, 0x000001, 0, 0x90004E, false, false, .idle⟩,
        [some (0x90004E#24, ⟨mkRat (-39) 1000, .inch, .negative⟩)]) := by decide

/-- Vectors K2, K5: none, and nothing changes. -/
theorem test_take_not_ready :
    (finalState (exec .take (stateOf ⟨0x000000, 0, 0x000001, 0, 0x90004E, false, false, .idle⟩))).map (fun s => (block s, s.takes)) =
      some (⟨0x000000, 0, 0x000001, 0, 0x90004E, false, false, .idle⟩, [none]) := by decide

/-- Vectors D2, D4, D6, D8, D9, D12, D15: exact values. -/
theorem test_decoder_exact :
    decodePacket Config.standard 0x100063 = ⟨mkRat (-99) 100, .mm, .negative⟩ ∧
    decodePacket Config.standard 0x100000 = ⟨mkRat 0 1, .mm, .negative⟩ ∧
    decodePacket Config.standard 0x7FFFFF = ⟨mkRat (-41943) 4, .mm, .negative⟩ ∧
    decodePacket Config.standard 0xFFFFFF = ⟨mkRat (-41943) 80, .inch, .negative⟩ ∧
    decodePacket Config.standard 0x600000 = ⟨mkRat 0 1, .mm, .positive⟩ ∧
    decodePacket Config.standard 0x800001 = ⟨mkRat 1 2000, .inch, .positive⟩ ∧
    decodePacket Config.standard 0x000064 = ⟨mkRat 1 1, .mm, .positive⟩ := by decide

/-- Column binary64 of D1, D2, D4, D5, D7, D12, D13: `0x1.hhhhhhhhhhhhh` times `2 ^ k` is the 53-bit significand times `2 ^ (k - 52)`. -/
theorem test_decoder_binary64 :
    floatOf .binary64 (decodePacket Config.standard 0x90004E) = ⟨true, 0x13f7ced916872b, -5 - 52⟩ ∧
    floatOf .binary64 (decodePacket Config.standard 0x100063) = ⟨true, 0x1fae147ae147ae, -1 - 52⟩ ∧
    floatOf .binary64 (decodePacket Config.standard 0x100000) = ⟨true, 0, 0⟩ ∧
    floatOf .binary64 (decodePacket Config.standard 0x0FFFFF) = ⟨false, 0x147ae000000000, 13 - 52⟩ ∧
    floatOf .binary64 (decodePacket Config.standard 0x8FFFFF) = ⟨false, 0x10624ccccccccd, 9 - 52⟩ ∧
    floatOf .binary64 (decodePacket Config.standard 0x800001) = ⟨false, 0x10624dd2f1a9fc, -11 - 52⟩ ∧
    floatOf .binary64 (decodePacket Config.standard 0x000001) = ⟨false, 0x147ae147ae147b, -7 - 52⟩ := by decide

/-- Column binary32 of D1, D2, D7, D12, D13: `0x1.hhhhhh` holds 24 bits after the point, so the 24-bit significand is half of the
seven digits, times `2 ^ (k - 23)`. -/
theorem test_decoder_binary32 :
    floatOf .binary32 (decodePacket Config.standard 0x90004E) = ⟨true, 0x13f7cee / 2, -5 - 23⟩ ∧
    floatOf .binary32 (decodePacket Config.standard 0x100063) = ⟨true, 0x1fae148 / 2, -1 - 23⟩ ∧
    floatOf .binary32 (decodePacket Config.standard 0x8FFFFF) = ⟨false, 0x10624cc / 2, 9 - 23⟩ ∧
    floatOf .binary32 (decodePacket Config.standard 0x800001) = ⟨false, 0x10624de / 2, -11 - 23⟩ ∧
    floatOf .binary32 (decodePacket Config.standard 0x000001) = ⟨false, 0x147ae14 / 2, -7 - 23⟩ := by decide

/-! ### RESET -/

/-- Vector S1, `pkt` left out. -/
theorem test_reset_mid_burst :
    (finalState (exec .reset (stateOf ⟨0x00000E, 5, 0x000020, 5, 0x90004E, true, true, .accumulating⟩))).map
      (fun s => { block s with pkt := 0 }) = some ⟨0x000000, 0, 0x000001, 0, 0, false, false, .idle⟩ := by decide

/-! ### Coincident events and text -/

/-- A state one cycle before its synchronisers show a rising edge with the data line high. -/
def edgeAhead (b : Block) : State :=
  { stateOf b with front := { State.reset.front with sclkSync := [true, false], sdataSync := [true, false] } }

/-- Vectors X1 (EDGE before TICK) and X3 (RESET alone), and a TICK before a TAKE (X2). -/
theorem test_coincident_events :
    (finalState (execCycle ⟨true, true, true, false, false⟩
      (edgeAhead ⟨0x0003FF, 10, 0x000400, 10, 0x000000, false, true, .accumulating⟩))).map block =
      some ⟨0x0007FF, 11, 0x000800, 11, 0x000000, false, true, .accumulating⟩ ∧
    (finalState (execCycle ⟨false, false, true, true, false⟩
      (stateOf ⟨0x90004E, 24, 0x000000, 24, 0x000000, false, true, .accumulating⟩))).map (fun s => (block s, s.takes.length)) =
      some (⟨0x000000, 0, 0x000001, 0, 0x90004E, false, true, .gapDetected⟩, 1) ∧
    (finalState (execCycle ⟨true, true, false, false, true⟩
      (edgeAhead ⟨0x0003FF, 10, 0x000400, 10, 0x000000, true, true, .accumulating⟩))).map (fun s => (s.bitsRead, s.ready)) =
      some (0, false) := by decide

/-- R10: with INVERT 1 the other transition is active, and with ACTIVE_EDGE_NONINV falling the falling one; the data line is high. -/
theorem test_active_transition :
    (∀ x ∈ [(inverted, true), ({ Config.standard with activeEdgeNoninv := .falling }, true),
        ({ inverted with activeEdgeNoninv := .falling }, false), (Config.standard, false)],
      let s : State := { State.reset with cfg := x.1, front := { State.reset.front with
        sclkSync := [false, true], sdataSync := [true, true] } }
      detectEdge s (shiftLines ⟨false, true, false, false, false⟩ s) = if x.2 then some true else none) := by decide

/-- 2.1: `SEND 0x100063` with `INVERT = 1`, as words. -/
theorem test_send_expansion :
    (sendOps true 0x100063#24).map (fun i => (encode i).toNat) =
      [2, 2, 3, 3, 3, 2, 2, 3, 4, 3, 3, 3, 3, 3, 3, 3, 3, 4, 3, 3, 3, 3, 2, 3, 3, 3, 4] := by decide

/-- R64, R65: a comment, a blank line, `xN`, `GAP`; an unknown word is refused. -/
theorem test_text :
    parseRun false ['E', 'D', 'G', 'E', ' ', '1', ' ', 'x', '2', ' ', ';', 'a', '\n', '\n', 'G', 'A', 'P', '\n', 'T', 'A', 'K', 'E'] =
      some [.edge true, .edge true, .tick, .tick, .take] ∧
    parseRun false ['N', 'O', 'P'] = none ∧
    (parseRun true ['S', 'E', 'N', 'D', ' ', '0', 'x', '1', '0', '0', '0', '6', '3']) = some (sendOps true 0x100063#24) := by decide

/-! ### Witnesses: for each statement with hypotheses, a state and operands that meet all of them -/

def underCount (b : Block) : State := { stateOf b with cfg := countPolicy }

/-- The reset state with these inputs supplied. -/
def supplied (is : List Input) : State := { State.reset with inputs := is }

/-- A transmission body from its first EDGE, decided by the walk of Laws/Envelope.lean. -/
theorem body_of_walk {body : List Instr} (h : spaced true body = true)
    (h1 : ∃ lvl rest, body = Instr.edge lvl :: rest) (h2 : ∃ lvl rest, body = rest ++ [Instr.edge lvl])
    (h3 : Instr.reset ∉ body) : TransmissionBody body := ⟨h1, h2, h3, envIntra_of_spaced h⟩

/-- 23 EDGEs with a TICK after the 8th and a TAKE and a TICK after the 16th. -/
def body23 : List Instr :=
  List.replicate 8 (Instr.edge true) ++ .tick :: (List.replicate 8 (Instr.edge false) ++
    .take :: .tick :: List.replicate 7 (Instr.edge true))

def body24 : List Instr := body23 ++ [.edge false]

def body3 : List Instr := [.edge true, .tick, .edge false, .edge true]

theorem body24_ok : TransmissionBody body24 :=
  body_of_walk (by decide) ⟨_, _, rfl⟩ ⟨_, body23, rfl⟩ (by decide)

theorem body23_ok : TransmissionBody body23 :=
  body_of_walk (by decide) ⟨_, _, rfl⟩
    ⟨true, List.replicate 8 (Instr.edge true) ++ .tick :: (List.replicate 8 (Instr.edge false) ++
      .take :: .tick :: List.replicate 6 (Instr.edge true)), by decide⟩ (by decide)

theorem body3_ok : TransmissionBody body3 :=
  body_of_walk (by decide) ⟨_, _, rfl⟩ ⟨_, [.edge true, .tick, .edge false], rfl⟩ (by decide)

theorem body1_ok : TransmissionBody [.edge true] := body_of_walk (by decide) ⟨_, _, rfl⟩ ⟨_, [], rfl⟩ (by decide)

theorem reset_at_rest : AtRest State.reset := ⟨⟨rfl, rfl, rfl⟩, rfl⟩

/-- The invariants hold in the middle of a burst of one bit. -/
theorem burst_inv : Inv (stateOf ⟨0x000001, 1, 0x000002, 0, 0, false, false, .idle⟩) where
  mask := by unfold MaskInv; decide
  buffer := by
    intro i h1 h2
    have : 1 ≤ i := h1
    interval_cases i <;> rfl
  snapshot := by unfold SnapshotInv; decide
  count := by unfold CountInv; decide
  front := ⟨rfl, rfl⟩

theorem witness_KthEdgeSuppliesItsBit : EmptyAccumulator State.reset := ⟨rfl, rfl, rfl⟩

/-- Both clauses: the 25th EDGE, and the one at SAT. -/
theorem witness_ExcessEdgesAreOnlyCounted :
    (MaskInv (stateOf ⟨0x90004E, 24, 0x000000, 16, 0, false, true, .idle⟩) ∧ 24 < Config.standard.sat) ∧
      MaskInv (stateOf ⟨0x90004E, 65535, 0x000000, 16, 0, false, true, .idle⟩) ∧ 65535 = Config.standard.sat := by
  unfold MaskInv; decide

theorem witness_IdleTickWritesOnlyStatus : State.reset.bitsRead = 0 := rfl

/-- Under GAP, and under COUNT with 24 bits. -/
theorem witness_InProgressTickKeepsAccumulator :
    (∃ s : State, s.bitsRead ≠ 0 ∧ s.bitsRead ≠ s.lastBitsRead ∧ s.cfg.publishAt = .gap) ∧
      ∃ s : State, s.bitsRead ≠ 0 ∧ s.bitsRead ≠ s.lastBitsRead ∧ s.cfg.publishAt = .count ∧ s.bitsRead = 24 :=
  ⟨⟨stateOf ⟨0x00000E, 5, 0x000020, 0, 0, false, false, .idle⟩, by decide⟩,
    ⟨underCount ⟨0x90004E, 24, 0, 16, 0, false, true, .accumulating⟩, by decide⟩⟩

/-- One bit, and 25. -/
theorem witness_GapTickDropsOtherCounts :
    ∀ n ∈ [1, 23, 25], ∃ s : State, s.bitsRead = n ∧ s.bitsRead ≠ 0 ∧ s.bitsRead = s.lastBitsRead ∧ s.bitsRead ≠ 24 := by
  intro n hn
  refine ⟨stateOf ⟨0, n, 0, n, 0, false, true, .accumulating⟩, rfl, ?_⟩
  fin_cases hn <;> decide

theorem witness_GapTickPublishesTwentyFour :
    ∃ s : State, s.bitsRead = 24 ∧ s.lastBitsRead = 24 ∧ s.ready = true :=
  ⟨stateOf ⟨0x100063, 24, 0, 24, 0x90004E, true, true, .accumulating⟩, by decide⟩

/-- The policy's two values, each with a state that publishes and one that does not. -/
theorem witness_PublicationPointFollowsPolicy :
    (∃ s : State, s.cfg.publishAt = .gap ∧ s.bitsRead = 24 ∧ s.lastBitsRead = 24) ∧
      (∃ s : State, s.cfg.publishAt = .gap ∧ ¬ (s.bitsRead = 24 ∧ s.lastBitsRead = 24)) ∧
      (∃ s : State, s.cfg.publishAt = .count ∧ s.bitsRead = 24) ∧ ∃ s : State, s.cfg.publishAt = .count ∧ s.bitsRead ≠ 24 :=
  ⟨⟨stateOf ⟨0x90004E, 24, 0, 24, 0, false, true, .idle⟩, by decide⟩, ⟨State.reset, by decide⟩,
    ⟨underCount ⟨0x90004E, 24, 0, 16, 0, false, true, .idle⟩, by decide⟩,
    ⟨underCount ⟨0x90004E, 25, 0, 24, 0, false, true, .idle⟩, by decide⟩⟩

/-- A publication, 24 EDGEs with a TICK before the last and one after, and a publication. -/
theorem witness_AtMostOnePublicationPerBurst :
    ∃ (s u : State) (ops : List Instr), s.cfg.publishAt = .gap ∧ PublishesAt s ∧
      runOps (.tick :: ops) s = .next u ∧ PublishesAt u :=
  ⟨stateOf ⟨0x90004E, 24, 0, 24, 0, false, true, .accumulating⟩, _, List.replicate 24 (.edge true) ++ [.tick],
    rfl, by decide, rfl, by decide⟩

theorem witness_SnapshotFollowsTheBranch :
    (∃ s : State, s.bitsRead ≠ 0 ∧ s.bitsRead = s.lastBitsRead) ∧ ∃ s : State, s.bitsRead ≠ 0 ∧ s.bitsRead ≠ s.lastBitsRead :=
  ⟨⟨stateOf ⟨0x00000E, 5, 0x000020, 5, 0, false, true, .accumulating⟩, by decide⟩,
    ⟨stateOf ⟨0x00000E, 5, 0x000020, 4, 0, false, true, .accumulating⟩, by decide⟩⟩

/-- The three classes. -/
theorem witness_TickDrivesStatusOutputs :
    State.reset.bitsRead = 0 ∧ (∃ s : State, s.bitsRead ≠ 0 ∧ s.bitsRead ≠ s.lastBitsRead) ∧
      ∃ s : State, s.bitsRead ≠ 0 ∧ s.bitsRead = s.lastBitsRead :=
  ⟨rfl, witness_SnapshotFollowsTheBranch.2, witness_SnapshotFollowsTheBranch.1⟩

theorem witness_TakeReadsAndClears : (∃ s : State, s.ready = true) ∧ ∃ s : State, s.ready = false :=
  ⟨⟨stateOf ⟨0, 0, 1, 0, 0x90004E, true, false, .idle⟩, rfl⟩, ⟨State.reset, rfl⟩⟩

/-- A waiting packet, a TAKE, an idle TICK (it publishes nothing) and a TAKE. -/
theorem witness_UnrepublishedPacketIsTakenOnce :
    ∃ (s t : State) (ops : List Instr), s.ready = true ∧ ops = [.tick, .take] ∧
      (∀ (pre post : List Instr) (u : State), ops = pre ++ Instr.tick :: post → runOps (.take :: pre) s = .next u →
        ¬ PublishesAt u) ∧ runOps (.take :: ops) s = .next t := by
  refine ⟨stateOf ⟨0, 0, 1, 0, 0x90004E, true, false, .idle⟩, _, _, rfl, rfl, ?_, rfl⟩
  intro pre post u e hu
  match pre, e with
  | [], e =>
    simp only [runOps, exec_take, Host.Outcome.next.injEq] at hu
    subst hu; decide
  | [_], e => simp at e
  | [_, _], e => simp at e
  | _ :: _ :: _ :: _, e => simp at e

theorem witness_UnrepublishedPacketIsTakenOnce_noPacket : State.reset.ready = false := rfl

theorem witness_DefaultMasksSelectFields : Config.standard.defaultMasks = true := by decide

/-- Bits 21 and 22 are covered by no mask. -/
theorem witness_DecoderIgnoresUncoveredBits :
    0x600000#24 &&& (Config.standard.dataMask ||| Config.standard.signMask ||| Config.standard.unitMask) =
      0x000000#24 &&& (Config.standard.dataMask ||| Config.standard.signMask ||| Config.standard.unitMask) := by decide

/-- Each precision, zero and nonzero data. -/
theorem witness_FloatIsCorrectlyRounded :
    FloatFormat.binary32.precision = some 24 ∧ FloatFormat.binary64.precision = some 53 ∧
      FloatFormat.binary128.precision = some 113 ∧ dataBits Config.standard 0x100000 = 0 ∧
      dataBits Config.standard 0x000001 ≠ 0 := by decide

theorem witness_ReservedWordsAreRefused :
    0xF#4 ∉ [0x2#4, 0x3#4, 0x4#4, 0x6#4, 0x8#4] ∧ 0x0#4 ∉ [0x2#4, 0x3#4, 0x4#4, 0x6#4, 0x8#4] ∧
      State.reset.cfg.check = none := by decide

theorem witness_EncodedOperationsDecodeBack : (Instr.edge true).wf = true := rfl

/-- Both sides of the equivalence. -/
theorem witness_WordListsAreExactlyTheirRuns :
    decodeRun [0x3#4, 0x4#4, 0x6#4, 0x8#4] = .ok [.edge true, .tick, .take, .reset] := rfl

/-- A line with an operation and a comment, a comment alone, and a blank line. -/
theorem witness_RunTextReadsBack :
    ∀ l ∈ ([(some .tick, some ['a', ';']), (none, some []), (none, none)] : List (Option Instr × Option (List Char))),
      ∀ c, l.2 = some c → '\n' ∉ c := by
  simp

theorem witness_SendThenGapDelivers :
    State.reset.cfg.publishAt = .gap ∧ 24 ≤ State.reset.cfg.sat ∧ AtRest State.reset := ⟨rfl, by decide, reset_at_rest⟩

theorem witness_StepAppliesTheDecodedWord :
    (supplied [.word 0x3#4]).cfg.check = none ∧ (supplied [.word 0x3#4]).inputs = .word 0x3#4 :: [] ∧
      decode 0x3#4 = .ok (.edge true) := ⟨by decide, rfl, rfl⟩

/-- Each clause. -/
theorem witness_ListedInputsAreRefused :
    ({ Config.standard with packetBitCount := 23 }).packetBitCount ≠ 24 ∧
      ({ Config.standard with cntWidth := 4 }).cntWidth < 5 ∧
      ({ Config.standard with overrunPolicy := .hardFail }).overrunPolicy ≠ .defer ∧
      ((supplied [.word 0x0#4]).cfg.check = none ∧ decode 0x0#4 = .error (.reserved 0x0#4)) ∧
      ((supplied [.configure inverted]).cfg.check = none ∧ inverted ≠ (supplied [.configure inverted]).cfg) ∧
      Host.Core.run Sys2Proof.core 1 (supplied [.word 0x0#4]) = .refused (.reservedWord 0x0#4) :=
  ⟨by decide, by decide, by decide, ⟨by decide, rfl⟩, by decide, rfl⟩

theorem witness_NothingElseIsRefused : step (supplied [.word 0x0#4]) = .refused (.reservedWord 0x0#4) := rfl

theorem witness_StepsNeverWriteTheConfiguration : ∃ t, step (supplied [.word 0x8#4]) = .next t := ⟨_, rfl⟩

/-- A word, a clk cycle, and the configuration already in force. -/
theorem witness_AdmittedRunsComplete :
    Admitted (supplied [.word 0x8#4, .cycle ⟨true, false, true, true, true⟩, .configure Config.standard]) := by
  refine ⟨by decide, ?_⟩
  simp only [supplied, List.mem_cons, List.not_mem_nil, or_false, forall_eq_or_imp, forall_eq]
  exact ⟨⟨_, rfl⟩, by decide, rfl⟩

theorem witness_WordRunIsItsOperations : State.reset.cfg.check = none := by decide

theorem witness_ExhaustedRunStands : State.reset.cfg.check = none ∧ State.reset.inputs = [] := by decide

/-- In the middle of a burst, with a TICK supplied: the step completes. -/
theorem witness_EveryStepKeepsInvariants :
    ∃ s t : State, Inv s ∧ s.bitsRead = 1 ∧ step s = .next t ∧ t.lastBitsRead = 1 :=
  ⟨{ stateOf ⟨0x000001, 1, 0x000002, 0, 0, false, false, .idle⟩ with inputs := [.word 0x4#4] }, _,
    ⟨burst_inv.1, burst_inv.2, burst_inv.3, burst_inv.4, burst_inv.5⟩, rfl, rfl, rfl⟩

/-- `ready` set by a TICK, and cleared by a TAKE and by a RESET. -/
theorem witness_ReadyHasItsWritersOnly :
    (∃ s t : State, exec .tick s = .next t ∧ s.ready = false ∧ t.ready = true) ∧
      (∃ s t : State, exec .take s = .next t ∧ s.ready = true ∧ t.ready = false) ∧
      ∃ s t : State, exec .reset s = .next t ∧ s.ready = true ∧ t.ready = false :=
  ⟨⟨stateOf ⟨0x90004E, 24, 0, 24, 0, false, true, .accumulating⟩, _, rfl, by decide, by decide⟩,
    ⟨stateOf ⟨0, 0, 1, 0, 0x90004E, true, false, .idle⟩, _, rfl, by decide, by decide⟩,
    ⟨stateOf ⟨0, 0, 1, 0, 0x90004E, true, false, .idle⟩, _, rfl, by decide, rfl⟩⟩

/-- `pkt` written by a TICK, and an operation that is not TAKE. -/
theorem witness_PacketLatchHasItsWritersOnly :
    ∃ s t : State, exec .tick s = .next t ∧ t.pkt ≠ s.pkt ∧ Instr.tick ≠ Instr.take :=
  ⟨stateOf ⟨0x90004E, 24, 0, 24, 0, false, true, .accumulating⟩, _, rfl, by decide, by decide⟩

/-- 24 EDGEs and the two TICKs of a gap, from reset. -/
theorem witness_ReadyMeansTwentyFourSampledBits :
    ∃ t : State, 24 < State.reset.cfg.sat ∧ AtRest State.reset ∧ State.reset.ready = false ∧
      runOps (List.replicate 24 (.edge true) ++ [.tick, .tick]) State.reset = .next t ∧ t.ready = true :=
  ⟨_, by decide, reset_at_rest, rfl, rfl, by decide⟩

/-- A body of 24 EDGEs and one of 23. -/
theorem witness_FramingTheorem :
    State.reset.cfg.publishAt = .gap ∧ AtRest State.reset ∧
      (TransmissionBody body24 ∧ (levels body24).length = 24 ∧ 24 ≤ State.reset.cfg.sat) ∧
      (TransmissionBody body23 ∧ (levels body23).length = 23) ∧ ∀ i ∈ [Instr.take], i = Instr.take :=
  ⟨rfl, reset_at_rest, ⟨body24_ok, by decide, by decide⟩, ⟨body23_ok, by decide⟩, by simp⟩

/-- A packet and a dropped transmission. -/
theorem witness_EveryPacketIsDeliveredOnceInOrder :
    State.reset.cfg.publishAt = .gap ∧ AtRest State.reset ∧ State.reset.ready = false ∧ Quiet [.tick, .take] ∧
      ∀ x ∈ [(⟨body24, [.take], [], [.take, .tick]⟩ : Transmission), ⟨body3, [], [], [.take]⟩],
        x.Framed State.reset.cfg.sat ∧ Instr.take ∈ x.gapAfter := by
  refine ⟨rfl, reset_at_rest, rfl, by unfold Quiet; decide, ?_⟩
  simp only [List.mem_cons, List.not_mem_nil, or_false, forall_eq_or_imp, forall_eq]
  exact ⟨⟨⟨body24_ok, by decide, by decide, by unfold Quiet; decide, by decide⟩, by decide⟩,
    ⟨body3_ok, by decide, by decide, by unfold Quiet; decide, by decide⟩, by decide⟩

theorem witness_TwoTicksResynchronise :
    Inv (stateOf ⟨0x000001, 1, 0x000002, 0, 0, false, false, .idle⟩) ∧ TransmissionGap [.tick, .take, .tick] :=
  ⟨burst_inv, by unfold Quiet; decide, by decide⟩

/-- Both clauses: exactly 24 EDGEs, and a TICK after the 24th of 25. -/
theorem witness_CountPolicyPublishesTwice :
    let s := underCount ⟨0, 0, 1, 0, 0, false, false, .idle⟩
    s.cfg.publishAt = .count ∧ AtRest s ∧ 24 ≤ s.cfg.sat ∧ TransmissionBody body24 ∧ (levels body24).length = 24 ∧
      TransmissionBody (body24 ++ Instr.tick :: [.edge true]) :=
  ⟨rfl, ⟨⟨rfl, rfl, rfl⟩, rfl⟩, by decide, body24_ok, by decide,
    body_of_walk (by decide) ⟨_, _, rfl⟩ ⟨_, body24 ++ [.tick], rfl⟩ (by decide)⟩

theorem witness_MergedTransmissionsAreDropped :
    State.reset.cfg.publishAt = .gap ∧ AtRest State.reset ∧ TransmissionBody body3 ∧ TransmissionBody body24 ∧
      Quiet [.tick, .take] ∧ tickCount [.tick, .take] ≤ 1 ∧ (levels (body3 ++ body24)).length ≤ State.reset.cfg.sat ∧
      (levels (body3 ++ body24)).length ≠ 24 :=
  ⟨rfl, reset_at_rest, body3_ok, body24_ok, by unfold Quiet; decide, by decide, by decide, by decide⟩

/-- A 24-EDGE transmission split after its first EDGE. -/
theorem witness_FalseGapSplitsTransmission :
    State.reset.cfg.publishAt = .gap ∧ AtRest State.reset ∧ TransmissionBody [.edge true] ∧ TransmissionBody body23 ∧
      (levels [.edge true]).length ≤ State.reset.cfg.sat ∧ (levels body23).length ≤ State.reset.cfg.sat ∧
      (levels [.edge true]).length ≠ 24 ∧ (levels body23).length ≠ 24 :=
  ⟨rfl, reset_at_rest, body1_ok, body23_ok, by decide, by decide, by decide, by decide⟩

/-- The smallest legal counter. -/
theorem witness_SaturatedOverrunLooksLikeGap :
    ∃ s : State, 24 < s.cfg.sat ∧ s.bitsRead = s.cfg.sat ∧ s.lastBitsRead = s.cfg.sat :=
  ⟨{ stateOf ⟨0xFFFFFF, 31, 0, 31, 0, false, true, .accumulating⟩ with cfg := fiveBit }, by decide⟩

/-- An EDGE, a TICK and a TAKE in one cycle, and a RESET with them. -/
theorem witness_CoincidentEventsAreOrdered :
    ∀ b : Bool, ∃ s : State, s.cfg.check = none ∧ s.cfg.checkCycle = none ∧ s.inputs = [.cycle ⟨true, true, true, true, b⟩] ∧
      detectEdge s (shiftLines ⟨true, true, true, true, b⟩ s) = some true := by
  intro b
  refine ⟨{ edgeAhead ⟨0, 0, 1, 0, 0, false, false, .idle⟩ with inputs := [.cycle ⟨true, true, true, true, b⟩] }, ?_⟩
  cases b <;> decide

theorem witness_CoincidentEdgePreventsFalseGap :
    ∃ s : State, s.cfg.check = none ∧ s.cfg.checkCycle = none ∧ SnapshotInv s ∧ s.bitsRead < s.cfg.sat ∧
      s.inputs = [.cycle ⟨true, true, true, false, false⟩] ∧
      detectEdge s (shiftLines ⟨true, true, true, false, false⟩ s) = some true := by
  refine ⟨{ edgeAhead ⟨0x0003FF, 10, 0x000400, 10, 0, false, true, .accumulating⟩ with
    inputs := [.cycle ⟨true, true, true, false, false⟩] }, ?_⟩
  unfold SnapshotInv; decide

theorem witness_LinesYieldOneEdgePerActiveTransition :
    State.reset.cfg.check = none ∧ State.reset.cfg.checkCycle = none ∧ FrontInv State.reset ∧
      Config.standard.invert = false ∧ (inverted.invert = true ∧ inverted.activeEdgeNoninv = .rising) ∧
      ({ inverted with activeEdgeNoninv := .falling }).activeEdgeNoninv = .falling :=
  ⟨by decide, by decide, ⟨rfl, rfl⟩, rfl, ⟨rfl, rfl⟩, rfl⟩

def latencyOne : Config := { Config.standard with takeLatency := 1 }

/-- Latency 0 and 1 with a TAKE, and a cycle that holds the output. -/
theorem witness_TakeResultReachesTheOutput :
    (∃ t, execCycle ⟨false, false, false, true, false⟩ State.reset = .next t) ∧
      (∃ t t', execCycle ⟨false, false, false, true, false⟩ (State.resetWith latencyOne 0) = .next t ∧
        execCycle ⟨false, false, false, false, false⟩ t = .next t') ∧
      State.reset.cfg.checkCycle = none ∧ latencyOne.checkCycle = none ∧ latencyOne.takeLatency = 1 ∧
      State.reset.front.takePending = none :=
  ⟨⟨_, rfl⟩, ⟨_, _, rfl, rfl⟩, by decide, by decide, rfl, rfl⟩

/-- A state whose output register holds a packet, nothing on its way. -/
def holding : State :=
  { State.reset with front := { State.reset.front with takeOut := some (0x90004E#24, decodePacket Config.standard 0x90004E#24) } }

/-- A cycle that holds the output with nothing on its way: without a TAKE, and under reset with a TAKE strobed. -/
theorem witness_TakeResultReachesTheOutput_held :
    holding.cfg.checkCycle = none ∧ holding.front.takePending = none ∧ takeOutput holding ≠ none ∧
      (∃ t, execCycle ⟨false, false, true, false, false⟩ holding = .next t) ∧
      ∃ t, execCycle ⟨false, false, true, true, true⟩ holding = .next t :=
  ⟨by decide, rfl, by simp [holding, takeOutput], ⟨_, rfl⟩, ⟨_, rfl⟩⟩

/-- The same with latency 1: a TAKE, then a cycle under reset that brings its result to the output. -/
theorem witness_TakeResultReachesTheOutput_reset :
    ∃ t t', execCycle ⟨false, false, false, true, false⟩ (State.resetWith latencyOne 0) = .next t ∧
      execCycle ⟨false, false, false, true, true⟩ t = .next t' := ⟨_, _, rfl, rfl⟩

/-- EDGEs at 0, 2 and 4, TICKs at 1 and 3. -/
def trace : List Timed := [(0, .edge true), (1, .tick), (2, .edge false), (3, .tick), (4, .edge true)]

theorem witness_PeriodicTimerMeetsEnvIntra :
    TimeOrdered trace ∧ EdgesWithin 2 trace ∧ TicksEvery 2 trace ∧
      (∃ t lvl rest, trace = (t, Instr.edge lvl) :: rest) ∧ ∃ t lvl rest, trace = rest ++ [(t, Instr.edge lvl)] := by
  refine ⟨?_, ?_, ?_, ⟨_, _, _, rfl⟩, ⟨_, _, [(0, .edge true), (1, .tick), (2, .edge false), (3, .tick)], rfl⟩⟩
  · simp [TimeOrdered, trace]
  · intro before between after t t' lvl lvl' e hb
    rcases before with _ | ⟨_, _ | ⟨_, _ | ⟨_, _ | ⟨_, _ | ⟨_, _ | ⟨_, _⟩⟩⟩⟩⟩⟩ <;>
      rcases between with _ | ⟨_, _ | ⟨_, _ | ⟨_, _ | ⟨_, _⟩⟩⟩⟩ <;>
      simp_all [trace] <;> grind
  · intro before between after t t' e hb
    rcases before with _ | ⟨_, _ | ⟨_, _ | ⟨_, _ | ⟨_, _ | ⟨_, _ | ⟨_, _⟩⟩⟩⟩⟩⟩ <;>
      rcases between with _ | ⟨_, _ | ⟨_, _ | ⟨_, _ | ⟨_, _⟩⟩⟩⟩ <;>
      simp_all [trace]
    all_goals grind

/-- The defaults of log entry 2 meet the timing relation; the last EDGE at 0, the next transmission's first at 5. -/
theorem witness_PeriodicTimerTicksTwiceInTheGap :
    Config.standard.envelope = true ∧ 0 ≤ 0 ∧ 0 + Config.standard.packetGapDuration ≤ 5 := by decide

theorem witness_OutputsFollowTheState :
    State.reset.cfg.debugPresent = true ∧ ({ Config.standard with debugPresent := false }).debugPresent = false := by decide

theorem witness_IdleBlockOnlyDrivesStatus : isIdle State.reset = true := by decide

end Sys2Proof.Tests
end

section
/-!
PROOF. Where a TICK publishes: one condition, `PublishesAt`, read under each value of PUBLISH_AT (R14, R49).
-/

namespace Sys2Proof.Machine

open Sys2Proof.Safety

/-- R78. -/
theorem publishesAt_iff_of_gap {s : State} (h : s.cfg.publishAt = .gap) :
    PublishesAt s ↔ s.bitsRead = 24 ∧ s.lastBitsRead = 24 := by
  simp [PublishesAt, h]

/-- R79. -/
theorem publishesAt_iff_of_count {s : State} (h : s.cfg.publishAt = .count) :
    PublishesAt s ↔ s.bitsRead = 24 := by
  simp [PublishesAt, h]

/-- R49: a TICK writes both halves of the latch or neither. -/
theorem frameTick_latch (s : State) :
    if PublishesAt s then (frameTick s).pkt = s.buffer ∧ (frameTick s).ready = true
    else (frameTick s).pkt = s.pkt ∧ (frameTick s).ready = s.ready := by
  rw [frameTick_pkt, frameTick_ready]
  split
  case isTrue => exact ⟨rfl, rfl⟩
  case isFalse => exact ⟨rfl, rfl⟩

/-- Settles O9: the TICK's latch rule, with its condition read under each policy. -/
theorem publicationPointFollowsPolicy : Obligations.PublicationPointFollowsPolicy := by
  refine ⟨rfl, fun s => ⟨frameTick s, exec_tick s, fun hgap => ?_, fun hcount => ?_⟩⟩
  · simpa only [publishesAt_iff_of_gap hgap] using frameTick_latch s
  · simpa only [publishesAt_iff_of_count hcount] using frameTick_latch s

end Sys2Proof.Machine
end

section
/-!
PROOF. Who writes the configuration (nobody, R30) and who writes `ready` (R27).
-/

namespace Sys2Proof.Machine

open Sys2Proof.Safety

/-- Settles O31: whatever a step applied, each of its parts keeps `cfg`. -/
theorem stepsNeverWriteTheConfiguration : Obligations.StepsNeverWriteTheConfiguration := by
  intro s t h
  obtain ⟨-, ⟨-, rfl⟩ | ⟨x, rest, -, hx⟩⟩ := step_next_cases h
  case inl => rfl
  case inr =>
    obtain ⟨w, i, -, -, rfl⟩ | ⟨p, -, -, rfl⟩ | ⟨c, -, -, rfl⟩ := hx
    · exact after_cfg i { s with inputs := rest }
    · simp only [presentResult_cfg, afterAll_cfg, deliverPending_cfg, shiftLines_cfg]
    · rfl

/-- R49, R50: a TICK leaves `ready` at 1 when it publishes or when `ready` already stood, and never clears it. -/
theorem frameTick_ready_iff (s : State) : (frameTick s).ready = true ↔ PublishesAt s ∨ s.ready = true := by
  rw [frameTick_ready]
  split
  case isTrue hpub => exact iff_of_true rfl (.inl hpub)
  case isFalse hpub => exact (or_iff_right hpub).symm

theorem after_sets_ready {i : Instr} {s : State} (h0 : s.ready = false) (h1 : (after i s).ready = true) :
    i = .tick ∧ PublishesAt s := by
  cases i with
  | edge lvl => simp [h0] at h1
  | tick =>
    have hset := (frameTick_ready_iff s).mp h1
    exact ⟨rfl, hset.resolve_right (by simp [h0])⟩
  | take => simp at h1
  | reset => simp at h1

theorem after_clears_ready {i : Instr} {s : State} (h1 : s.ready = true) (h0 : (after i s).ready = false) :
    i = .take ∨ i = .reset := by
  cases i with
  | edge lvl => simp [h1] at h0
  | tick =>
    have hkept : (frameTick s).ready = true := (frameTick_ready_iff s).mpr (.inr h1)
    exact nomatch hkept.symm.trans h0
  | take => exact .inl rfl
  | reset => exact .inr rfl

/-- Settles O37: the two directions, for the one state an operation leaves. -/
theorem readyHasItsWritersOnly : Obligations.ReadyHasItsWritersOnly := by
  intro i s t h
  have ht : after i s = t := by simpa only [exec_eq_after, Host.Outcome.next.injEq] using h
  subst ht
  exact ⟨after_sets_ready, after_clears_ready⟩

end Sys2Proof.Machine
end

section
/-!
PROOF. A burst of EDGEs from an empty accumulator (R43): what it holds grows by one bit per EDGE, and it is all that moves.
-/

namespace Sys2Proof.Machine

open Sys2Proof.Safety

/-- R43: `Holds.recordBit` along a burst. -/
theorem Holds.afterAll_edges {s : State} {held : List Bool} (h : Holds s held) (lvls : List Bool) :
    Holds (afterAll (lvls.map Instr.edge) s) (held ++ lvls) := by
  induction lvls generalizing s held with
  | nil => simpa using h
  | cons lvl lvls ih => simpa using ih (h.recordBit lvl)

/-- R67: a burst writes the accumulator's three fields and nothing else. -/
theorem afterAll_edges_frame (lvls : List Bool) (s : State) :
    afterAll (lvls.map Instr.edge) s = { s with
      buffer := (afterAll (lvls.map Instr.edge) s).buffer
      bitsRead := (afterAll (lvls.map Instr.edge) s).bitsRead
      nextBitMask := (afterAll (lvls.map Instr.edge) s).nextBitMask } := by
  induction lvls generalizing s with
  | nil => rfl
  | cons lvl lvls ih => exact ih (recordBit lvl s)

/-- Settles O2: from an empty accumulator the burst is all that is held, and the rest is the frame. -/
theorem kthEdgeSuppliesItsBit : Obligations.KthEdgeSuppliesItsBit := by
  intro s lvls hempty
  have hheld : Holds (afterAll (lvls.map Instr.edge) s) lvls := (holds_nil hempty).afterAll_edges lvls
  refine ⟨_, runOps_eq_afterAll _ s, ?_, ?_, hheld.mask, afterAll_edges_frame lvls s⟩
  · simpa only [afterAll_cfg] using hheld.bits
  · simpa only [afterAll_cfg] using hheld.count

end Sys2Proof.Machine
end

section
/-!
PROOF. TAKEs with no publication between them (R48): once `ready` is clear it stays clear while no TICK publishes, and every
TAKE then answers none.
-/

namespace Sys2Proof.Machine

open Sys2Proof.Safety

/-- No TICK of the run publishes. -/
def NoPublication (ops : List Instr) (s : State) : Prop :=
  ∀ pre post : List Instr, ops = pre ++ Instr.tick :: post → ¬ PublishesAt (afterAll pre s)

theorem NoPublication.head {i : Instr} {is : List Instr} {s : State} (h : NoPublication (i :: is) s)
    (htick : i = .tick) : ¬ PublishesAt s :=
  h [] is (by rw [htick, List.nil_append])

theorem NoPublication.tail {i : Instr} {is : List Instr} {s : State} (h : NoPublication (i :: is) s) :
    NoPublication is (after i s) :=
  fun pre post hsplit => h (i :: pre) post (by rw [hsplit, List.cons_append])

/-- R27: only a publication sets `ready`. -/
theorem after_ready_stays_clear {i : Instr} {s : State} (hclear : s.ready = false)
    (hpub : i = .tick → ¬ PublishesAt s) : (after i s).ready = false :=
  Bool.eq_false_iff.mpr fun hset =>
    have ⟨htick, hpublishes⟩ := after_sets_ready hclear hset
    hpub htick hpublishes

/-- R91: a TAKE that finds `ready` clear returns none. -/
theorem takeResult_of_clear {s : State} (hclear : s.ready = false) : takeResult s = none := by
  simp [takeResult, hclear]

/-- R18: only a TAKE adds to the observation. -/
theorem after_takes_of_ne_take {i : Instr} (h : i ≠ .take) (s : State) : (after i s).takes = s.takes := by
  cases i with
  | edge lvl => exact recordBit_takes lvl s
  | tick => exact frameTick_takes s
  | take => exact absurd rfl h
  | reset => exact resetBlock_takes s

theorem afterAll_ready_of_noPublication {ops : List Instr} {s : State} (hclear : s.ready = false)
    (hno : NoPublication ops s) : (afterAll ops s).ready = false := by
  induction ops generalizing s with
  | nil => exact hclear
  | cons i is ih => exact ih (after_ready_stays_clear hclear hno.head) hno.tail

theorem afterAll_takes_of_noPublication {ops : List Instr} {s : State} (hclear : s.ready = false)
    (hno : NoPublication ops s) : (afterAll ops s).takes = s.takes ++ List.replicate (ops.count .take) none := by
  induction ops generalizing s with
  | nil => simp
  | cons i is ih =>
    rw [afterAll_cons, ih (after_ready_stays_clear hclear hno.head) hno.tail]
    by_cases htake : i = .take
    case pos =>
      subst htake
      simp [takeResult_of_clear hclear, List.replicate_succ]
    case neg => rw [after_takes_of_ne_take htake, List.count_cons_of_ne htake]

/-- Settles O14: the first TAKE leaves `ready` clear, and the rest of the run has no publication. -/
theorem unrepublishedPacketIsTakenOnce : Obligations.UnrepublishedPacketIsTakenOnce := by
  refine ⟨fun s t ops hquiet hrun => ?_, fun s hclear => ⟨takeLatch s, exec_take s, ?_⟩⟩
  · have hno : NoPublication ops (takeLatch s) := fun pre post hsplit =>
      hquiet pre post _ hsplit (runOps_eq_afterAll (.take :: pre) s)
    have hend : afterAll ops (takeLatch s) = t := by
      simpa only [runOps_eq_afterAll, afterAll_cons, after_take, Host.Outcome.next.injEq] using hrun
    subst hend
    refine ⟨afterAll_ready_of_noPublication (takeLatch_ready s) hno, ?_⟩
    rw [afterAll_takes_of_noPublication (takeLatch_ready s) hno, takeLatch_takes, List.append_assoc,
      List.singleton_append, takeResult]
  · rw [takeLatch_eq, ← hclear]

end Sys2Proof.Machine
end

section
/-!
PROOF. A run of words applied by steps (R6, R61, R66): the words of operations are consumed one by one, and the first reserved
word is refused whatever stands around it.
-/

namespace Sys2Proof.Machine

open Sys2Proof.Safety

/-- R56: the two fields are the whole word. -/
theorem formatEV_opField_dField (w : OpWord) : formatEV (opField w) (dField w) = w := by decide +revert

/-- R66: a word with a meaning is the word of that operation. -/
theorem encode_of_decode_ok {w : OpWord} {i : Instr} (h : decode w = .ok i) : encode i = w := by
  have hform := formatEV_opField_dField w
  unfold decode at h
  split at h
  case isTrue hop => cases h; rwa [hop] at hform
  case isFalse =>
    split_ifs at h with hfields hfields hfields
    all_goals
      cases h
      rwa [hfields.1, hfields.2] at hform

/-- R61: a word without a meaning is rejected by its own name. -/
theorem decode_error_eq_reserved {w : OpWord} {e : DecodeError} (h : decode w = .error e) : e = .reserved w := by
  unfold decode at h
  split_ifs at h
  cases h
  rfl

/-- R57 to R60: the five words that spell an operation. -/
theorem encode_mem_operationWords (i : Instr) : encode i ∈ [0x2#4, 0x3#4, 0x4#4, 0x6#4, 0x8#4] := by
  cases i with
  | edge lvl => cases lvl <;> decide
  | tick => decide
  | take => decide
  | reset => decide

theorem decode_of_not_mem_operationWords {w : OpWord} (h : w ∉ [0x2#4, 0x3#4, 0x4#4, 0x6#4, 0x8#4]) :
    decode w = .error (.reserved w) := by
  cases hd : decode w with
  | ok i => exact absurd (encode_of_decode_ok hd ▸ encode_mem_operationWords i) h
  | error e => rw [decode_error_eq_reserved hd]

theorem decode_encode (i : Instr) : decode (encode i) = .ok i := by
  cases i with
  | edge lvl => exact Laws.RoundTrip.edge lvl rfl
  | tick => exact Laws.RoundTrip.tick rfl
  | take => exact Laws.RoundTrip.take rfl
  | reset => exact Laws.RoundTrip.reset rfl

/-- R66: the step that finds an operation's word in front applies that operation and takes the word off. -/
theorem step_encode {s : State} (h : s.cfg.check = none) (i : Instr) (rest : List Input) :
    step { s with inputs := .word (encode i) :: rest } = .next { after i s with inputs := rest } := by
  rw [step_supplied h, ← after_with_inputs, ← exec_eq_after, applyInput, applyWord, decode_encode]

/-- R108 (a): the step that finds a reserved word in front is refused with its name. -/
theorem step_reserved {s : State} {w : OpWord} (h : s.cfg.check = none) (hw : decode w = .error (.reserved w))
    (rest : List Input) : step { s with inputs := .word w :: rest } = .refused (.reservedWord w) := by
  rw [step_supplied h, applyInput, applyWord, hw]

/-- R6, R52: after as many steps as there are words, their operations have been applied in order. -/
theorem core_run_wordsOf {s : State} (h : s.cfg.check = none) (ops : List Instr) (rest : List Input) (k : Nat) :
    Host.Core.run Sys2Proof.core (ops.length + k) { s with inputs := wordsOf ops ++ rest } =
      Host.Core.run Sys2Proof.core k { afterAll ops s with inputs := rest } := by
  induction ops generalizing s with
  | nil => rw [List.length_nil, Nat.zero_add]; rfl
  | cons i is ih =>
    have hstep := step_encode h i (wordsOf is ++ rest)
    have hcheck : (after i s).cfg.check = none := by rwa [after_cfg]
    rw [List.length_cons, Nat.add_right_comm]
    exact (core_run_succ hstep (is.length + k)).trans (ih hcheck)

/-- Settles O23: the operations before the reserved word complete, and the step after them finds it in front. -/
theorem reservedWordsAreRefused : Obligations.ReservedWordsAreRefused := by
  intro w hw
  have hdecode := decode_of_not_mem_operationWords hw
  refine ⟨hdecode, fun s ops rest k hcheck => ?_⟩
  have hcheck' : (afterAll ops s).cfg.check = none := by rwa [afterAll_cfg]
  rw [Nat.add_assoc, Nat.add_comm 1 k, core_run_wordsOf hcheck]
  exact core_run_refused (step_reserved hcheck' hdecode rest) k

end Sys2Proof.Machine
end

section
/-!
PROOF. A run's text read line by line (R64): a comment disappears, and what is left of a line spells its operation or nothing.
-/

namespace Sys2Proof.Machine

open Sys2Proof.Safety

/-! ### One line -/

/-- What stands before a line's comment. -/
def operationText (o : Option Instr) : List Char := o.elim [] opText

theorem lineText_of_no_comment (o : Option Instr) : lineText (o, none) = operationText o := by
  cases o with
  | none => rfl
  | some i => exact List.append_nil (opText i)

theorem lineText_of_comment (o : Option Instr) (c : List Char) :
    lineText (o, some c) = operationText o ++ ';' :: c := by
  cases o <;> rfl

/-- An operation's text neither ends a line nor begins a comment. -/
theorem operationText_is_plain (o : Option Instr) : '\n' ∉ operationText o ∧ ';' ∉ operationText o := by
  cases o with
  | none => exact ⟨List.not_mem_nil, List.not_mem_nil⟩
  | some i =>
    cases i with
    | edge lvl => cases lvl <;> decide
    | tick => decide
    | take => decide
    | reset => decide

theorem newline_not_mem_lineText {l : Option Instr × Option (List Char)} (h : ∀ c, l.2 = some c → '\n' ∉ c) :
    '\n' ∉ lineText l := by
  obtain ⟨o, _ | c⟩ := l
  case none => rw [lineText_of_no_comment]; exact (operationText_is_plain o).1
  case some =>
    rw [lineText_of_comment, List.mem_append, List.mem_cons]
    rintro (hop | hsemi | hc)
    · exact (operationText_is_plain o).1 hop
    · exact absurd hsemi (by decide)
    · exact h c rfl hc

theorem dropComment_append {t : List Char} (h : ';' ∉ t) (u : List Char) :
    dropComment (t ++ u) = t ++ dropComment u := by
  induction t with
  | nil => rfl
  | cons c cs ih =>
    obtain ⟨hc, hcs⟩ := not_or.mp (mt List.mem_cons.mpr h)
    rw [List.cons_append, dropComment, if_neg (Ne.symm hc), ih hcs, List.cons_append]

theorem dropComment_operationText (o : Option Instr) : dropComment (operationText o) = operationText o := by
  simpa only [dropComment, List.append_nil] using dropComment_append (operationText_is_plain o).2 []

theorem dropComment_lineText (l : Option Instr × Option (List Char)) :
    dropComment (lineText l) = operationText l.1 := by
  obtain ⟨o, _ | c⟩ := l
  case none => rw [lineText_of_no_comment, dropComment_operationText]
  case some =>
    rw [lineText_of_comment, dropComment_append (operationText_is_plain o).2, dropComment, if_pos rfl,
      List.append_nil]

/-- R64: a comment adds no word to its line. -/
theorem lineWords_lineText (l : Option Instr × Option (List Char)) :
    lineWords (lineText l) = lineWords (operationText l.1) := by
  rw [lineWords, lineWords, dropComment_lineText, dropComment_operationText]

/-- R64: the words of an operation's text spell that operation, and no words spell none. -/
theorem parseWords_operationText (invert : Bool) (o : Option Instr) :
    parseWords invert (lineWords (operationText o)) = some o.toList := by
  cases o with
  | none => rfl
  | some i =>
    cases i with
    | edge lvl => cases lvl <;> rfl
    | tick => rfl
    | take => rfl
    | reset => rfl

theorem parseWords_lineText (invert : Bool) (l : Option Instr × Option (List Char)) :
    parseWords invert (lineWords (lineText l)) = some l.1.toList := by
  rw [lineWords_lineText, parseWords_operationText]

/-! ### Lines one after another -/

/-- A text that begins with a piece and a separator is cut after that piece. -/
theorem cutAt_append_cons {sep : Char → Bool} {piece : List Char} {c : Char} (hpiece : ∀ x ∈ piece, sep x = false)
    (hc : sep c = true) (rest : List Char) : cutAt sep (piece ++ c :: rest) = piece :: cutAt sep rest := by
  induction piece with
  | nil => rw [List.nil_append, cutAt, if_pos hc]
  | cons x xs ih =>
    obtain ⟨hx, hxs⟩ := List.forall_mem_cons.mp hpiece
    rw [List.cons_append, cutAt, if_neg (Bool.eq_false_iff.mp hx), ih hxs]

/-- R64: the first line's operations come first, then those of the rest of the text. -/
theorem parseRun_line {invert : Bool} {line text : List Char} {ops more : List Instr} (hline : '\n' ∉ line)
    (hops : parseWords invert (lineWords line) = some ops) (hmore : parseRun invert text = some more) :
    parseRun invert (line ++ '\n' :: text) = some (ops ++ more) := by
  have hpiece : ∀ x ∈ line, decide (x = '\n') = false := fun x hx =>
    decide_eq_false fun heq => hline (heq ▸ hx)
  unfold parseRun at hmore ⊢
  rw [cutAt_append_cons hpiece (decide_eq_true rfl), parseLines, hops, hmore]

/-- Settles O26, by induction on the lines. -/
theorem runTextReadsBack : Obligations.RunTextReadsBack := by
  intro invert lines hcomments
  induction lines with
  | nil => rfl
  | cons l ls ih =>
    obtain ⟨hl, hls⟩ := List.forall_mem_cons.mp hcomments
    have hread := parseRun_line (newline_not_mem_lineText hl) (parseWords_lineText invert l) (ih hls)
    rw [List.flatMap_cons, List.append_assoc, List.singleton_append, hread]
    obtain ⟨_ | i, c⟩ := l <;> rfl

end Sys2Proof.Machine
end

section
/-!
PROOF. EDGE as one record (R67): the three parts of its pseudocode read one after the other, and nothing else happens.
-/

namespace Sys2Proof.Machine

/-- R68 to R71: the mask ORed in is the one before the shift, and the count stays at SAT. -/
theorem recordBit_eq (lvl : Bool) (s : State) :
    recordBit lvl s = { s with
      buffer := if xor lvl s.cfg.invert then s.buffer ||| s.nextBitMask else s.buffer
      bitsRead := if s.bitsRead < s.cfg.sat then s.bitsRead + 1 else s.bitsRead
      nextBitMask := s.nextBitMask <<< 1 } := rfl

/-- Settles O1: R57's word is the one `encode` gives EDGE, and its arm is `recordBit`, read as one record with SAT written
out (R70). -/
theorem edgeRecordsOneBit : Obligations.EdgeRecordsOneBit := by
  intro lvl s
  have hword : encode (.edge lvl) = 0b001#3 ++ BitVec.ofBool lvl := rfl
  have hsat : s.cfg.sat = 2 ^ s.cfg.cntWidth - 1 := rfl
  constructor
  · rw [← hword, decode_encode]
  · rw [exec_edge, recordBit_eq, hsat]

end Sys2Proof.Machine
end

section
/-!
PROOF. The Framer's branches (R76): what an idle and an in-progress TICK leave, the snapshot after either branch (R82), and
how far the count can rise between two publications (R78).
-/

namespace Sys2Proof.Machine

open Sys2Proof.Safety

/-- Settles O5: the idle branch is the whole TICK. -/
theorem idleTickWritesOnlyStatus : Obligations.IdleTickWritesOnlyStatus := by
  intro s hidle
  rw [exec_tick, frameTick_idle hidle]

/-- Settles O6: the in-progress branch is the whole TICK. -/
theorem inProgressTickKeepsAccumulator : Obligations.InProgressTickKeepsAccumulator := by
  intro s hbits hmoved
  rw [exec_tick, frameTick_inProgress hbits hmoved]

/-- Settles O11: both counts of the record each branch leaves. -/
theorem snapshotFollowsTheBranch : Obligations.SnapshotFollowsTheBranch := by
  intro s hbits
  refine ⟨frameTick s, exec_tick s, ?_⟩
  by_cases hl : s.bitsRead = s.lastBitsRead
  case pos =>
    rw [frameTick_gap hbits hl]
    exact ⟨rfl, fun _ => rfl, fun hmoved => absurd hl hmoved⟩
  case neg =>
    rw [frameTick_inProgress hbits hl]
    exact ⟨rfl, fun hsame => absurd hsame hl, fun _ => rfl⟩

/-- R80: a TICK that finds the count where the last one left it leaves no bits; an idle one has none to leave. -/
theorem frameTick_bitsRead (s : State) :
    (frameTick s).bitsRead = if s.bitsRead = s.lastBitsRead then 0 else s.bitsRead := by
  by_cases h0 : s.bitsRead = 0
  case pos => rw [frameTick_idle h0]; simp [h0]
  case neg =>
    by_cases hl : s.bitsRead = s.lastBitsRead
    case pos => rw [frameTick_gap h0 hl, if_pos hl]
    case neg => rw [frameTick_inProgress h0 hl, if_neg hl]

/-- R70: an EDGE raises the count by at most one, and nothing else raises it. -/
theorem after_bitsRead_le (i : Instr) (s : State) : (after i s).bitsRead ≤ s.bitsRead + (levels [i]).length := by
  cases i with
  | edge lvl =>
    rw [after_edge, recordBit_bitsRead]
    simp only [levels, List.length_singleton]
    split <;> omega
  | tick =>
    rw [after_tick, frameTick_bitsRead]
    split <;> omega
  | take => simp
  | reset => simp

/-- The count a run leaves is at most the count it began with and its EDGEs. -/
theorem afterAll_bitsRead_le (ops : List Instr) (s : State) :
    (afterAll ops s).bitsRead ≤ s.bitsRead + (levels ops).length := by
  induction ops generalizing s with
  | nil => simp
  | cons i is ih =>
    have hlevels : (levels (i :: is)).length = (levels [i]).length + (levels is).length := by
      rw [← List.singleton_append, levels_append, List.length_append]
    calc (afterAll is (after i s)).bitsRead
        ≤ (after i s).bitsRead + (levels is).length := ih (after i s)
      _ ≤ s.bitsRead + (levels [i]).length + (levels is).length := Nat.add_le_add_right (after_bitsRead_le i s) _
      _ = s.bitsRead + (levels (i :: is)).length := by rw [hlevels, Nat.add_assoc]

/-- R78, R80: under GAP the TICK that publishes is a gap, so it leaves no bits. -/
theorem frameTick_bitsRead_of_publication {s : State} (hgap : s.cfg.publishAt = .gap) (hpub : PublishesAt s) :
    (frameTick s).bitsRead = 0 := by
  obtain ⟨hcount, hsnapshot⟩ := (publishesAt_iff_of_gap hgap).mp hpub
  rw [frameTick_bitsRead, if_pos (hcount.trans hsnapshot.symm)]

/-- R78's condition as the spec writes it: a gap (`n == l`, `n != 0`) and `n == 24`. -/
theorem publishesAt_iff_gap_with_24 {s : State} (hgap : s.cfg.publishAt = .gap) :
    PublishesAt s ↔ s.bitsRead ≠ 0 ∧ s.bitsRead = s.lastBitsRead ∧ s.bitsRead = 24 := by
  rw [publishesAt_iff_of_gap hgap]
  omega

/-- Settles O10: the TICK's latch rule under GAP; and a publication empties the accumulator, so the 24 bits of the next one
are EDGEs of the run between. -/
theorem atMostOnePublicationPerBurst : Obligations.AtMostOnePublicationPerBurst := by
  refine fun s hgap => ⟨⟨frameTick s, exec_tick s, ?_⟩, fun ops u hpub hrun ⟨hagain, _⟩ => ?_⟩
  · simpa only [publishesAt_iff_gap_with_24 hgap] using frameTick_latch s
  · have hu : afterAll ops (frameTick s) = u := by simpa [runOps_eq_afterAll] using hrun
    have hle := afterAll_bitsRead_le ops (frameTick s)
    rw [hu, hagain, frameTick_bitsRead_of_publication hgap hpub, Nat.zero_add] at hle
    exact hle

end Sys2Proof.Machine
end

section
/-!
PROOF. The consumer's side: what a TAKE returns and leaves (R90, R91), and the measurement of a packet read off its
three masked fields (R93 to R99).
-/

namespace Sys2Proof.Machine

/-! ### TAKE -/

theorem takeResult_of_ready {s : State} (hready : s.ready = true) :
    takeResult s = some (s.pkt, decodePacket s.cfg s.pkt) := if_pos hready

/-- Settles O13: R59's word is the one `encode` gives TAKE, and its arm is one record with the result of either case;
with `ready` clear, clearing it writes nothing. -/
theorem takeReadsAndClears : Obligations.TakeReadsAndClears := by
  have hword : encode .take = 0b0110#4 := rfl
  refine ⟨hword ▸ decode_encode .take, fun s => ⟨fun hready => ?_, fun hclear => ?_⟩⟩
  · rw [exec_take, takeLatch_eq, takeResult_of_ready hready]
  · rw [exec_take, takeLatch_eq, takeResult_of_clear hclear, ← hclear]

/-! ### The fields of a packet -/

/-- R94: no shift follows the AND. -/
theorem dataBits_testBit (c : Config) (p : RawPacket) (i : Nat) :
    (dataBits c p).testBit i = (p.getLsbD i && c.dataMask.getLsbD i) := by
  rw [dataBits, BitVec.testBit_toNat, BitVec.getLsbD_and]

theorem isNegative_iff (c : Config) (p : RawPacket) : isNegative c p = true ↔ p &&& c.signMask ≠ 0#24 := bne_iff_ne

theorem isInch_iff (c : Config) (p : RawPacket) : isInch c p = true ↔ p &&& c.unitMask ≠ 0#24 := bne_iff_ne

theorem decodePacket_sign (c : Config) (p : RawPacket) :
    (decodePacket c p).sign = if p &&& c.signMask ≠ 0#24 then .negative else .positive := by
  simp only [decodePacket, isNegative_iff]

theorem decodePacket_unit (c : Config) (p : RawPacket) :
    (decodePacket c p).unit = if p &&& c.unitMask ≠ 0#24 then .inch else .mm := by
  simp only [decodePacket, isInch_iff]

/-- R93, R97: the fraction the decoder builds is the signed data field over the divisor. -/
theorem decodePacket_value (c : Config) (p : RawPacket) :
    (decodePacket c p).value =
      (if isNegative c p then -1 else 1) * (dataBits c p : Rat) / (divisor (isInch c p) : Rat) := by
  rw [decodePacket, Rat.mkRat_eq_div]
  cases isNegative c p <;> simp

/-- Settles O18: the value, unit and sign of the measurement, with the tests on the fields written out. -/
theorem decoderValueIsExactRational : Obligations.DecoderValueIsExactRational := by
  refine fun c p => ⟨?_, decodePacket_unit c p, decodePacket_sign c p⟩
  have hdivisor : (divisor (isInch c p) : Rat) = if isInch c p then 2000 else 100 := by
    cases isInch c p <;> rfl
  rw [decodePacket_value, hdivisor, dataBits]
  simp only [isNegative_iff, isInch_iff]

/-! ### The default masks -/

theorem defaultMasks_iff (c : Config) : c.defaultMasks = true ↔
    c.dataMask = 0x0FFFFF#24 ∧ c.signMask = 0x100000#24 ∧ c.unitMask = 0x800000#24 := by
  simp only [Config.defaultMasks, Bool.and_eq_true, beq_iff_eq, and_assoc]

/-- A mask of one bit tests that bit. -/
theorem and_twoPow_ne_zero_iff (p : RawPacket) {i : Nat} (hi : i < 24) :
    p &&& BitVec.twoPow 24 i ≠ 0#24 ↔ p.getLsbD i = true := by
  have hbit : BitVec.twoPow 24 i ≠ 0#24 := fun hzero => by simpa [hi] using congrArg (BitVec.getLsbD · i) hzero
  rw [BitVec.and_twoPow]
  cases p.getLsbD i <;> simp [hbit]

/-- R94: the default data mask keeps bits 19 to 0. -/
theorem dataBits_of_lowMask {c : Config} (hmask : c.dataMask = 0x0FFFFF#24) (p : RawPacket) :
    dataBits c p = p.toNat % 2 ^ 20 := by
  rw [dataBits, hmask, BitVec.toNat_and]
  exact Nat.and_two_pow_sub_one_eq_mod p.toNat 20

theorem decodePacket_sign_eq_negative_iff (c : Config) (p : RawPacket) :
    (decodePacket c p).sign = .negative ↔ p &&& c.signMask ≠ 0#24 := by
  rw [decodePacket_sign]
  split <;> simp [*]

theorem decodePacket_unit_eq_inch_iff (c : Config) (p : RawPacket) :
    (decodePacket c p).unit = .inch ↔ p &&& c.unitMask ≠ 0#24 := by
  rw [decodePacket_unit]
  split <;> simp [*]

/-- Settles O19: the default sign and unit masks are the powers of two at bits 20 and 23. -/
theorem defaultMasksSelectFields : Obligations.DefaultMasksSelectFields := by
  refine ⟨dataBits_testBit, fun c p hdefault => ?_⟩
  obtain ⟨hdata, hsign, hunit⟩ := (defaultMasks_iff c).mp hdefault
  have hlow := dataBits_of_lowMask hdata p
  have h20 : 0x100000#24 = BitVec.twoPow 24 20 := rfl
  have h23 : 0x800000#24 = BitVec.twoPow 24 23 := rfl
  refine ⟨hlow, by omega, ?_, ?_⟩
  · rw [decodePacket_sign_eq_negative_iff, hsign, h20, and_twoPow_ne_zero_iff p (by decide)]
  · rw [decodePacket_unit_eq_inch_iff, hunit, h23, and_twoPow_ne_zero_iff p (by decide)]

/-! ### Uncovered bits -/

/-- The measurement depends on the packet through its three masked fields only. -/
theorem decodePacket_congr {c : Config} {p q : RawPacket} (hdata : p &&& c.dataMask = q &&& c.dataMask)
    (hsign : p &&& c.signMask = q &&& c.signMask) (hunit : p &&& c.unitMask = q &&& c.unitMask) :
    decodePacket c p = decodePacket c q := by
  have hfield : dataBits c p = dataBits c q := congrArg BitVec.toNat hdata
  have hnegative : isNegative c p = isNegative c q := congrArg (· != 0#24) hsign
  have hinch : isInch c p = isInch c q := congrArg (· != 0#24) hunit
  rw [decodePacket, hfield, hnegative, hinch, decodePacket]

/-- A mask sees nothing of what a wider mask removes. -/
theorem and_or_and_self (x m n : RawPacket) : x &&& (m ||| n) &&& m = x &&& m := by
  ext i
  simp only [BitVec.getElem_and, BitVec.getElem_or]
  cases m[i] <;> simp

/-- Packets that agree on the bits of two masks agree on the bits of either. -/
theorem and_eq_and_of_or {p q m n : RawPacket} (hagree : p &&& (m ||| n) = q &&& (m ||| n)) :
    p &&& m = q &&& m ∧ p &&& n = q &&& n := by
  constructor
  · rw [← and_or_and_self p m n, hagree, and_or_and_self]
  · rw [BitVec.or_comm] at hagree
    rw [← and_or_and_self p n m, hagree, and_or_and_self]

/-- Settles O20: packets that agree on the masks' union agree on each of the three fields. -/
theorem decoderIgnoresUncoveredBits : Obligations.DecoderIgnoresUncoveredBits := by
  intro c p q hagree
  obtain ⟨hdataSign, hunit⟩ := and_eq_and_of_or hagree
  obtain ⟨hdata, hsign⟩ := and_eq_and_of_or hdataSign
  exact decodePacket_congr hdata hsign hunit

end Sys2Proof.Machine
end

section
/-!
PROOF. The outputs brought out of the block (R119, R120) and its idle condition (R121).
-/

namespace Sys2Proof.Machine

theorem debugOutput_of_present {s : State} (hpresent : s.cfg.debugPresent = true) :
    debugOutput s = some (s.dbg, s.phase.code) := if_pos hpresent

theorem debugOutput_of_absent {s : State} (habsent : s.cfg.debugPresent = false) : debugOutput s = none :=
  if_neg (Bool.eq_false_iff.mp habsent)

/-- R29: the fourth two-bit code names no phase. -/
theorem phase_code_ne_three (p : Phase) : p.code ≠ 0b11#2 := by
  cases p with
  | idle => decide
  | accumulating => decide
  | gapDetected => decide

/-- Settles O54: the two values of DEBUG_PRESENT, and the codes of the three phases. -/
theorem outputsFollowTheState : Obligations.OutputsFollowTheState :=
  ⟨⟨rfl, rfl, rfl⟩, fun s =>
    ⟨debugOutput_of_present, debugOutput_of_absent, rfl, phase_code_ne_three s.phase⟩⟩

theorem isIdle_iff (s : State) : isIdle s = true ↔ s.bitsRead = 0 ∧ s.ready = false := by
  simp only [isIdle, Bool.and_eq_true, beq_iff_eq, Bool.not_eq_true']

/-- Settles O55: an idle block holds no bit, so its TICK takes the idle branch (R77), which writes the two status fields. -/
theorem idleBlockOnlyDrivesStatus : Obligations.IdleBlockOnlyDrivesStatus := by
  refine fun s => ⟨isIdle_iff s, fun hidle => ⟨frameTick s, exec_tick s, ?_⟩⟩
  obtain ⟨hbits, -⟩ := (isIdle_iff s).mp hidle
  rw [frameTick_idle hbits]

end Sys2Proof.Machine
end

section
/-!
PROOF. The start of a run (R34, R124): whatever the configuration and whatever `pkt` holds, the block is at rest, its latch
empty and its status idle.
-/

namespace Sys2Proof.Machine

open Sys2Proof.Safety

@[simp] theorem resetWith_ready (c : Config) (p : RawPacket) : (State.resetWith c p).ready = false := rfl
@[simp] theorem resetWith_dbg (c : Config) (p : RawPacket) : (State.resetWith c p).dbg = false := rfl
@[simp] theorem resetWith_phase (c : Config) (p : RawPacket) : (State.resetWith c p).phase = .idle := rfl
@[simp] theorem resetWith_takes (c : Config) (p : RawPacket) : (State.resetWith c p).takes = [] := rfl

/-- R34: neither the configuration nor `pkt` reaches the accumulator or the snapshot. -/
theorem atRest_resetWith (c : Config) (p : RawPacket) : AtRest (State.resetWith c p) := ⟨⟨rfl, rfl, rfl⟩, rfl⟩

/-- R29: the code of the phase IDLE. -/
theorem phase_code_idle : Phase.idle.code = 0b00#2 := rfl

/-- Settles O17: a start state is at rest, with an empty latch and an idle status; `State.reset` is one by its definition. -/
theorem runStartsInTheResetState : Obligations.RunStartsInTheResetState := by
  refine ⟨⟨Config.standard, 0x000000#24, rfl⟩, fun c p => ?_⟩
  obtain ⟨⟨hbuffer, hbits, hmask⟩, hlast⟩ := atRest_resetWith c p
  have hcode : (State.resetWith c p).phase.code = 0b00#2 := by rw [resetWith_phase, phase_code_idle]
  exact ⟨hbuffer, hbits, hmask, hlast, resetWith_ready c p, resetWith_dbg c p, resetWith_phase c p, hcode,
    resetWith_takes c p⟩

end Sys2Proof.Machine
end

section
/-!
PROOF. Words and runs (R56 to R60, R66): decode and encode are inverse on one word, and so they are word by word.
-/

namespace Sys2Proof.Machine

/-- The one-word law: an operation is read from its own word and from no other. -/
theorem decode_eq_ok_iff (w : OpWord) (i : Instr) : decode w = .ok i ↔ w = encode i := by
  constructor
  · exact fun h => (encode_of_decode_ok h).symm
  · rintro rfl
    exact decode_encode i

theorem decodeRun_encode (ops : List Instr) : decodeRun (ops.map encode) = .ok ops := by
  induction ops with
  | nil => rfl
  | cons i is ih => simp only [List.map_cons, decodeRun, decode_encode, ih]

/-- A word list is read only if its first word and the rest of it are. -/
theorem decodeRun_cons_ok {w : OpWord} {ws : List OpWord} {ops : List Instr} (h : decodeRun (w :: ws) = .ok ops) :
    ∃ i is, decode w = .ok i ∧ decodeRun ws = .ok is ∧ ops = i :: is := by
  simp only [decodeRun] at h
  split at h
  case h_1 => cases h
  case h_2 i hi =>
    split at h
    case h_1 => cases h
    case h_2 is his => cases h; exact ⟨i, is, hi, his, rfl⟩

/-- Settles O25: from the list to the run by induction on the list, and back by `decodeRun_encode`. -/
theorem wordListsAreExactlyTheirRuns : Obligations.WordListsAreExactlyTheirRuns := by
  intro ws ops
  constructor
  · intro h
    induction ws generalizing ops with
    | nil => cases h; rfl
    | cons w ws ih =>
      obtain ⟨i, is, hw, hws, rfl⟩ := decodeRun_cons_ok h
      rw [List.map_cons, ← (decode_eq_ok_iff w i).mp hw, ← ih is hws]
  · rintro rfl
    exact decodeRun_encode ops

/-- Settles O24: every operation is well-formed, so the hypothesis is not needed. -/
theorem encodedOperationsDecodeBack : Obligations.EncodedOperationsDecodeBack :=
  fun i _ => decode_encode i

/-- Settles O22: each of the five words is the word `encode` gives its operation. -/
theorem operationWordsDecode : Obligations.OperationWordsDecode :=
  ⟨decode_encode (.edge false), decode_encode (.edge true), decode_encode .tick, decode_encode .take,
    decode_encode .reset⟩

end Sys2Proof.Machine
end

section
/-!
PROOF. The invariants (R35 to R37, with the widths of the count and of the synchronisers): they hold wherever the accumulator
is empty, and every operation and every step keeps them.
-/

namespace Sys2Proof.Machine

open Sys2Proof.Safety

/-! ### Legal configurations -/

/-- R31, R8, D8: the three conditions the check makes. -/
theorem check_eq_none_iff (c : Config) :
    c.check = none ↔ c.packetBitCount = 24 ∧ 5 ≤ c.cntWidth ∧ c.overrunPolicy = .defer := by
  unfold Config.check
  split_ifs with hcount hwidth hpolicy
  · simp [hcount]
  · simp [hwidth]
  · simp [hpolicy]
  · simp_all

/-- R31: the count can go past 24, since it has at least five bits. -/
theorem sat_gt_of_check {c : Config} (h : c.check = none) : 24 < c.sat := by
  obtain ⟨-, hwidth, -⟩ := (check_eq_none_iff c).mp h
  have hpow : 2 ^ 5 ≤ 2 ^ c.cntWidth := Nat.pow_le_pow_right (by decide) hwidth
  rw [Config.sat]
  omega

/-! ### Where the invariants hold -/

/-- R85: an empty accumulator meets every invariant of the block. -/
theorem inv_of_atRest {s : State} (h : AtRest s) (hfront : FrontInv s) : Inv s := by
  obtain ⟨⟨hbuffer, hbits, hmask⟩, hlast⟩ := h
  exact
    { mask := by simp [MaskInv, hbits, hmask]
      buffer := fun i _ _ => by simp [hbuffer]
      snapshot := by simp [SnapshotInv, hlast]
      count := by simp [CountInv, hbits]
      front := hfront }

/-- The invariants speak of the accumulator, the snapshot, the configuration and the synchronisers' lengths only. -/
theorem inv_congr {s t : State} (h : Inv s) (hbuffer : t.buffer = s.buffer) (hbits : t.bitsRead = s.bitsRead)
    (hmask : t.nextBitMask = s.nextBitMask) (hcfg : t.cfg = s.cfg) (hsnapshot : SnapshotInv t)
    (hfront : FrontInv t) : Inv t where
  mask := by rw [MaskInv, hmask, hbits]; exact h.mask
  buffer := by rw [BufferInv, hbuffer, hbits]; exact h.buffer
  snapshot := hsnapshot
  count := by rw [CountInv, hbits, hcfg]; exact h.count
  front := hfront

/-! ### The operations -/

/-- R80: a gap leaves the framer at rest. -/
theorem atRest_frameTick_of_gap {s : State} (hbits : s.bitsRead ≠ 0) (hsame : s.bitsRead = s.lastBitsRead) :
    AtRest (frameTick s) := by
  rw [frameTick_gap hbits hsame]
  exact ⟨⟨rfl, rfl, rfl⟩, rfl⟩

theorem atRest_resetBlock (s : State) : AtRest (resetBlock s) := ⟨⟨rfl, rfl, rfl⟩, rfl⟩

theorem frontInv_after {s : State} (h : FrontInv s) (i : Instr) : FrontInv (after i s) := by
  rwa [FrontInv, after_front, after_cfg]

/-- R35: the mask at SAT has left its 24 bits long ago, so it stays 0 when the count stands still. -/
theorem maskInv_recordBit {s : State} (h : Inv s) (hsat : 24 ≤ s.cfg.sat) (lvl : Bool) : MaskInv (recordBit lvl s) := by
  have hmask : s.nextBitMask = if s.bitsRead < 24 then 1#24 <<< s.bitsRead else 0#24 := h.mask
  rw [MaskInv, recordBit_nextBitMask, recordBit_bitsRead, hmask, shift_mask]
  by_cases hbelow : s.bitsRead < s.cfg.sat
  case pos => rw [if_pos hbelow]
  case neg => rw [if_neg hbelow, if_neg (by omega), if_neg (by omega)]

/-- R36: an EDGE sets at most the bit numbered by the old count, which is below the new one. -/
theorem bufferInv_recordBit {s : State} (h : Inv s) (hsat : 24 ≤ s.cfg.sat) (lvl : Bool) :
    BufferInv (recordBit lvl s) := by
  intro k hk hk23
  rw [recordBit_bitsRead] at hk
  have hcount : s.bitsRead < k := by split at hk <;> omega
  have hold : s.buffer.getLsbD k = false := h.buffer k (by omega) hk23
  have hmask : s.nextBitMask.getLsbD k = false := by
    rw [show s.nextBitMask = _ from h.mask, getLsbD_mask _ _ (by omega)]
    exact decide_eq_false (by omega)
  rw [recordBit_buffer]
  split
  case isTrue => rw [BitVec.getLsbD_or, hold, hmask, Bool.or_false]
  case isFalse => exact hold

theorem inv_recordBit {s : State} (h : Inv s) (hsat : 24 ≤ s.cfg.sat) (lvl : Bool) : Inv (recordBit lvl s) where
  mask := maskInv_recordBit h hsat lvl
  buffer := bufferInv_recordBit h hsat lvl
  snapshot := by
    have hsnapshot : s.lastBitsRead ≤ s.bitsRead := h.snapshot
    rw [SnapshotInv, recordBit_lastBitsRead, recordBit_bitsRead]
    split <;> omega
  count := by
    have hcount : s.bitsRead ≤ s.cfg.sat := h.count
    rw [CountInv, recordBit_bitsRead, recordBit_cfg]
    split <;> omega
  front := frontInv_after h.front (.edge lvl)

theorem inv_frameTick {s : State} (h : Inv s) : Inv (frameTick s) := by
  have hfront : FrontInv (frameTick s) := frontInv_after h.front .tick
  by_cases hbits : s.bitsRead = 0
  case pos =>
    rw [frameTick_idle hbits] at hfront ⊢
    exact inv_congr h rfl rfl rfl rfl h.snapshot hfront
  case neg =>
    by_cases hsame : s.bitsRead = s.lastBitsRead
    case pos => exact inv_of_atRest (atRest_frameTick_of_gap hbits hsame) hfront
    case neg =>
      rw [frameTick_inProgress hbits hsame] at hfront ⊢
      exact inv_congr h rfl rfl rfl rfl (Nat.le_refl s.bitsRead) hfront

/-- Every operation keeps the invariants. -/
theorem inv_after {s : State} (h : Inv s) (hsat : 24 ≤ s.cfg.sat) (i : Instr) : Inv (after i s) := by
  cases i with
  | edge lvl => exact inv_recordBit h hsat lvl
  | tick => exact inv_frameTick h
  | take =>
    have hsnapshot : SnapshotInv (takeLatch s) := by
      rw [SnapshotInv, takeLatch_lastBitsRead, takeLatch_bitsRead]
      exact h.snapshot
    exact inv_congr h (takeLatch_buffer s) (takeLatch_bitsRead s) (takeLatch_nextBitMask s) (takeLatch_cfg s) hsnapshot
      (frontInv_after h.front .take)
  | reset => exact inv_of_atRest (atRest_resetBlock s) (frontInv_after h.front .reset)

theorem inv_afterAll {s : State} (h : Inv s) (hsat : 24 ≤ s.cfg.sat) (ops : List Instr) : Inv (afterAll ops s) := by
  induction ops generalizing s with
  | nil => exact h
  | cons i is ih => exact ih (inv_after h hsat i) (by rwa [after_cfg])

/-! ### The steps -/

/-- R138: a level enters and the oldest stage leaves. -/
theorem length_shiftIn (level : Bool) (stages : List Bool) : (shiftIn level stages).length = stages.length := by
  simp [shiftIn]

theorem inv_shiftLines {s : State} (h : Inv s) (p : Pins) : Inv (shiftLines p s) := by
  obtain ⟨hclock, hdata⟩ := h.front
  exact inv_congr h rfl rfl rfl rfl h.snapshot ⟨(length_shiftIn ..).trans hclock, (length_shiftIn ..).trans hdata⟩

theorem inv_deliverPending {s : State} (h : Inv s) : Inv (deliverPending s) :=
  inv_congr h rfl rfl rfl rfl h.snapshot h.front

theorem inv_presentResult {s : State} (h : Inv s) (ops : List Instr) : Inv (presentResult ops s) := by
  have hfront : FrontInv (presentResult ops s) := by
    obtain ⟨hclock, hdata⟩ := presentResult_sync ops s
    rw [FrontInv, hclock, hdata, presentResult_cfg]
    exact h.front
  rw [presentResult_eq] at hfront ⊢
  exact inv_congr h rfl rfl rfl rfl h.snapshot hfront

/-- The supplied inputs are in no invariant. -/
theorem inv_with_inputs {s : State} (h : Inv s) (inputs : List Input) : Inv { s with inputs := inputs } :=
  inv_congr h rfl rfl rfl rfl h.snapshot h.front

/-- Settles O35: an operation keeps the invariants, and so do the parts of a clk cycle around its operations. -/
theorem everyStepKeepsInvariants : Obligations.EveryStepKeepsInvariants := by
  intro s t h hstep
  obtain ⟨hcheck, ⟨-, rfl⟩ | ⟨x, rest, -, hx⟩⟩ := step_next_cases hstep
  case inl => exact h
  case inr =>
    have hsat : 24 ≤ s.cfg.sat := (sat_gt_of_check hcheck).le
    have hrest := inv_with_inputs h rest
    obtain ⟨w, i, -, -, rfl⟩ | ⟨p, -, -, rfl⟩ | ⟨c, -, -, rfl⟩ := hx
    · exact inv_after hrest hsat i
    · exact inv_presentResult (inv_afterAll (inv_deliverPending (inv_shiftLines hrest p)) hsat _) _
    · exact hrest

/-- R138: the synchronisers start SYNC_STAGES deep. -/
theorem frontInv_resetWith (c : Config) (p : RawPacket) : FrontInv (State.resetWith c p) :=
  ⟨List.length_replicate, List.length_replicate⟩

theorem inv_resetWith (c : Config) (p : RawPacket) : Inv (State.resetWith c p) :=
  inv_of_atRest (atRest_resetWith c p) (frontInv_resetWith c p)

/-- Settles O36: a start state is at rest, and `State.reset` is one. -/
theorem resetMeetsInvariants : Obligations.ResetMeetsInvariants :=
  ⟨inv_resetWith Config.standard 0x000000#24, inv_resetWith⟩

end Sys2Proof.Machine
end

section
/-!
PROOF. Steps and runs of steps (R6, R66, R105, R108, R145): which inputs complete, which are refused, and that a run of words is
its operations.
-/

namespace Sys2Proof.Machine

open Sys2Proof.Safety

/-! ### What a step refuses (R108) -/

theorem applyWord_of_decode {w : OpWord} {i : Instr} (h : decode w = .ok i) (s : State) :
    applyWord w s = .next (after i s) := by
  rw [applyWord, h]
  exact exec_eq_after i s

theorem check_ne_none_of_illegal {c : Config} (h : c.packetBitCount ≠ 24 ∨ c.cntWidth < 5 ∨ c.overrunPolicy ≠ .defer) :
    c.check ≠ none := by
  rw [ne_eq, check_eq_none_iff]
  rintro ⟨hcount, hwidth, hpolicy⟩
  obtain h | h | h := h
  · exact h hcount
  · omega
  · exact h hpolicy

theorem step_illegal_of_check_ne_none {s : State} (h : s.cfg.check ≠ none) :
    ∃ why, step s = .refused (.illegalConfiguration why) := by
  obtain ⟨why, hwhy⟩ := Option.ne_none_iff_exists'.mp h
  exact ⟨why, step_illegal hwhy⟩

theorem step_reserved_of_inputs {s : State} {w : OpWord} {rest : List Input} (hcheck : s.cfg.check = none)
    (hinputs : s.inputs = .word w :: rest) (hw : decode w = .error (.reserved w)) :
    step s = .refused (.reservedWord w) := by
  rw [step_cons hcheck hinputs, applyInput, applyWord, hw]

theorem step_configure_of_ne {s : State} {c : Config} {rest : List Input} (hcheck : s.cfg.check = none)
    (hinputs : s.inputs = .configure c :: rest) (hc : c ≠ s.cfg) : step s = .refused .configurationChange := by
  rw [step_cons hcheck hinputs, applyInput, applyConfigure, if_neg hc]

/-- A refused run stays refused however many more steps are asked for. -/
theorem run_refused_add {M : Host.Core} {s : M.State} {k : Nat} {r : M.Refusal} (h : M.run k s = .refused r) (n : Nat) :
    M.run (k + n) s = .refused r := by
  induction k generalizing s with
  | zero => cases h
  | succ k ih =>
    rw [Nat.add_right_comm]
    rw [run_succ] at h ⊢
    cases hstep : M.step s with
    | next t => rw [hstep] at h; exact ih h
    | fault f => rw [hstep] at h; exact h
    | refused r' => rw [hstep] at h; exact h

/-- R105, R108: there is no fault to answer. -/
theorem step_ne_fault (s : State) (r : Fault) : step s ≠ .fault r := nomatch r

/-- Settles O29: one lemma for each refusal. -/
theorem listedInputsAreRefused : Obligations.ListedInputsAreRefused :=
  ⟨fun _ hillegal => step_illegal_of_check_ne_none (check_ne_none_of_illegal hillegal),
    fun _ _ _ => step_reserved_of_inputs,
    fun _ _ _ => step_configure_of_ne,
    step_ne_fault,
    fun _ _ n _ hrun => run_refused_add hrun n,
    fun _ => rfl⟩

/-- Settles O30: the legal configuration put aside, the kinds of the oldest input, each with the one way it can be refused. -/
theorem nothingElseIsRefused : Obligations.NothingElseIsRefused := by
  intro s r hstep
  by_cases hcheck : s.cfg.check = none
  case neg => exact .inl hcheck
  case pos =>
    refine .inr ?_
    cases hinputs : s.inputs with
    | nil => exact nomatch (step_nil hcheck hinputs).symm.trans hstep
    | cons x rest =>
      rw [step_cons hcheck hinputs] at hstep
      cases x with
      | word w =>
        cases hw : decode w with
        | ok i => exact nomatch (applyWord_of_decode hw { s with inputs := rest }).symm.trans hstep
        | error e => exact .inl ⟨w, rest, rfl, decode_error_eq_reserved hw ▸ hw⟩
      | cycle p =>
        refine .inr (.inr ⟨p, rest, rfl, fun hcycle => ?_⟩)
        exact nomatch (execCycle_next p { s with inputs := rest } hcycle).symm.trans hstep
      | configure c =>
        refine .inr (.inl ⟨c, rest, rfl, fun hc => ?_⟩)
        simp [applyInput, applyConfigure, hc] at hstep

/-! ### What a step completes (R105) -/

/-- A step takes the oldest input off, if there is one. -/
theorem step_next_inputs {s t : State} (h : step s = .next t) : t.inputs = s.inputs.tail := by
  obtain ⟨-, ⟨hnil, rfl⟩ | ⟨x, rest, hcons, hx⟩⟩ := step_next_cases h
  case inl => rw [hnil, List.tail_nil]
  case inr =>
    rw [hcons, List.tail_cons]
    obtain ⟨w, i, -, -, rfl⟩ | ⟨p, -, -, rfl⟩ | ⟨c, -, -, rfl⟩ := hx
    · rw [after_inputs]
    · simp only [presentResult_inputs, afterAll_inputs, deliverPending_inputs, shiftLines_inputs]
    · rfl

theorem step_next_of_admitted {s : State} (h : Admitted s) : ∃ t, step s = .next t := by
  obtain ⟨hcheck, hadmitted⟩ := h
  cases hinputs : s.inputs with
  | nil => exact ⟨s, step_nil hcheck hinputs⟩
  | cons x rest =>
    have hx := hadmitted x (by rw [hinputs]; exact List.mem_cons_self)
    rw [step_cons hcheck hinputs]
    cases x with
    | word w =>
      obtain ⟨i, hi⟩ := hx
      exact ⟨after i { s with inputs := rest }, applyWord_of_decode hi _⟩
    | cycle p => exact ⟨_, execCycle_next p { s with inputs := rest } hx⟩
    | configure c => exact ⟨{ s with inputs := rest }, if_pos hx⟩

theorem admitted_of_step {s t : State} (h : Admitted s) (hstep : step s = .next t) : Admitted t := by
  obtain ⟨hcheck, hadmitted⟩ := h
  have hcfg : t.cfg = s.cfg := stepsNeverWriteTheConfiguration s t hstep
  rw [Admitted, hcfg, step_next_inputs hstep]
  exact ⟨hcheck, fun x hx => hadmitted x (List.mem_of_mem_tail hx)⟩

theorem run_next_of_admitted {s : State} (h : Admitted s) (k : Nat) :
    ∃ t : State, Host.Core.run Sys2Proof.core k s = .next t := by
  induction k generalizing s with
  | zero => exact ⟨s, core_run_zero s⟩
  | succ k ih =>
    obtain ⟨t, hstep⟩ := step_next_of_admitted h
    obtain ⟨u, hrun⟩ := ih (admitted_of_step h hstep)
    exact ⟨u, (core_run_succ hstep k).trans hrun⟩

/-- Settles O32: an admitted state steps to an admitted state. -/
theorem admittedRunsComplete : Obligations.AdmittedRunsComplete :=
  ⟨exec_next, fun _ k h => run_next_of_admitted h k⟩

/-! ### Runs of words (R6, R66, R145) -/

theorem afterAll_with_inputs (ops : List Instr) (s : State) (x : List Input) :
    afterAll ops { s with inputs := x } = { afterAll ops s with inputs := x } := by
  induction ops generalizing s with
  | nil => rfl
  | cons i is ih => rw [afterAll_cons, after_with_inputs, ih, afterAll_cons]

/-- Settles O33: the steps consume the words and apply their operations, which do not read the queue. -/
theorem wordRunIsItsOperations : Obligations.WordRunIsItsOperations := by
  intro s ops rest hcheck
  have hrun := core_run_wordsOf hcheck ops rest 0
  rw [Nat.add_zero] at hrun
  rw [runOps_eq_afterAll, afterAll_with_inputs]
  exact hrun

/-- Settles O28: the step is the word's arm of `exec`, which completes and leaves the queue. -/
theorem stepAppliesTheDecodedWord : Obligations.StepAppliesTheDecodedWord := by
  intro s w i rest hcheck hinputs hw
  have hstep : step s = exec i { s with inputs := rest } := by
    rw [step_cons hcheck hinputs, exec_eq_after]
    exact applyWord_of_decode hw _
  exact ⟨hstep, _, hstep.trans (exec_eq_after i _), after_inputs i _⟩

theorem core_run_of_no_input {s : State} (hcheck : s.cfg.check = none) (hinputs : s.inputs = []) (k : Nat) :
    Host.Core.run Sys2Proof.core k s = .next s := by
  induction k with
  | zero => exact core_run_zero s
  | succ k ih => exact (core_run_succ (step_nil hcheck hinputs) k).trans ih

/-- Settles O34: the run stands, so its observation is the state's. -/
theorem exhaustedRunStands : Obligations.ExhaustedRunStands := by
  intro s k hcheck hinputs
  have hrun := core_run_of_no_input hcheck hinputs k
  exact ⟨hrun, congrArg observation hrun⟩

end Sys2Proof.Machine
end

section
/-!
PROOF. Single operations: the polarity of EDGE and its excess (R68 to R73), the gap TICK and the status after each TICK (R80 to
R84), RESET (R123), and who writes and reads `pkt` (R26).
-/

namespace Sys2Proof.Machine

open Sys2Proof.Safety

/-! ### EDGE -/

/-- Settles O3: EDGE reads INVERT in the logical bit only, and there the two complements cancel. -/
theorem edgePolarityIsOneExchange : Obligations.EdgePolarityIsOneExchange := by
  intro lvl s
  refine ⟨recordBit lvl s, exec_edge lvl s, ?_⟩
  have hbit : xor (!lvl) (!s.cfg.invert) = xor lvl s.cfg.invert := Bool.not_xor_not ..
  simp only [exec_edge, recordBit_eq, hbit]
  rfl

/-- R69, R71: past its 24 bits the mask is 0, so an EDGE inserts nothing and the mask stays. -/
theorem recordBit_of_mask_zero {s : State} (hmask : s.nextBitMask = 0#24) (lvl : Bool) :
    recordBit lvl s = { s with bitsRead := if s.bitsRead < s.cfg.sat then s.bitsRead + 1 else s.bitsRead } := by
  have hbuffer : s.buffer ||| 0#24 = s.buffer := BitVec.or_zero
  have hshift : 0#24 <<< 1 = 0#24 := BitVec.zero_shiftLeft 1
  rw [recordBit_eq, hmask, hbuffer, hshift, ite_self, ← hmask]

/-- Settles O4: the mask invariant gives an empty mask from 24 bits on. -/
theorem excessEdgesAreOnlyCounted : Obligations.ExcessEdgesAreOnlyCounted := by
  intro lvl s hinv h24
  have hmask : s.nextBitMask = 0#24 := hinv.trans (if_neg (by omega))
  rw [exec_edge, recordBit_of_mask_zero hmask]
  exact ⟨fun hbelow => by rw [if_pos hbelow], fun hfull => by rw [if_neg hfull.not_lt]⟩

/-! ### TICK -/

/-- Settles O7: the gap branch with a count other than 24, and the level `dbg` had. -/
theorem gapTickDropsOtherCounts : Obligations.GapTickDropsOtherCounts := by
  intro s hbits hsame h24
  refine ⟨s.dbg, ?_⟩
  rw [exec_tick, frameTick_gap hbits hsame, if_neg h24, if_neg h24]

/-- Settles O8: the gap branch with 24 bits. -/
theorem gapTickPublishesTwentyFour : Obligations.GapTickPublishesTwentyFour := by
  intro s h24 hlast
  refine ⟨s.dbg, ?_⟩
  rw [exec_tick, frameTick_gap (by omega) (h24.trans hlast.symm), if_pos h24, if_pos h24]

/-- Settles O12: the status fields of each branch's record. -/
theorem tickDrivesStatusOutputs : Obligations.TickDrivesStatusOutputs := by
  refine fun s => ⟨frameTick s, exec_tick s, fun hidle => ?_, fun hbits hmoved => ?_, fun hbits hsame => ?_⟩
  · rw [frameTick_idle hidle]
    exact ⟨rfl, rfl⟩
  · rw [frameTick_inProgress hbits hmoved]
    exact ⟨rfl, rfl⟩
  · rw [frameTick_gap hbits hsame]
    exact ⟨rfl, rfl⟩

/-! ### RESET -/

/-- Settles O16: R60's word, the record of RESET, and a TAKE that finds `ready` clear. -/
theorem resetRestoresTheBlock : Obligations.ResetRestoresTheBlock := by
  refine ⟨decode_encode .reset, fun s => ⟨⟨Config.freePacket s.draws, exec_reset s⟩, _, runOps_eq_afterAll _ s, ?_⟩⟩
  have hnone : takeResult (resetBlock s) = none := takeResult_of_clear (resetBlock_ready s)
  rw [afterAll_cons, afterAll_cons, afterAll_nil, after_take, after_reset, takeLatch_takes, hnone, resetBlock_takes]

/-! ### The latch -/

theorem after_writes_pkt {i : Instr} {s : State} (h : (after i s).pkt ≠ s.pkt) :
    (i = .tick ∧ PublishesAt s ∧ (after i s).pkt = s.buffer) ∨ i = .reset := by
  cases i with
  | edge lvl => exact absurd (recordBit_pkt lvl s) h
  | tick =>
    rw [after_tick, frameTick_pkt] at h ⊢
    by_cases hpub : PublishesAt s
    case pos => exact .inl ⟨rfl, hpub, if_pos hpub⟩
    case neg => exact absurd (if_neg hpub) h
  | take => exact absurd (takeLatch_pkt s) h
  | reset => exact .inr rfl

/-- A TICK does not read the latch. -/
theorem frameTick_with_pkt (s : State) (p : RawPacket) :
    frameTick { s with pkt := p } = { frameTick s with pkt := (frameTick { s with pkt := p }).pkt } := by
  simp only [frameTick_eq]
  split
  · rfl
  · split <;> rfl

theorem after_with_pkt {i : Instr} (h : i ≠ .take) (s : State) (p : RawPacket) :
    after i { s with pkt := p } = { after i s with pkt := (after i { s with pkt := p }).pkt } := by
  cases i with
  | edge lvl => rfl
  | tick => exact frameTick_with_pkt s p
  | take => exact absurd rfl h
  | reset => rfl

/-- Settles O38: the writers, and for the readers the same operation on the two latches. -/
theorem packetLatchHasItsWritersOnly : Obligations.PacketLatchHasItsWritersOnly := by
  intro i s t h
  have ht : after i s = t := by simpa only [exec_eq_after, Host.Outcome.next.injEq] using h
  subst ht
  exact ⟨after_writes_pkt, fun p htake => ⟨_, exec_eq_after i _, after_with_pkt htake s p⟩⟩

end Sys2Proof.Machine
end

section
/-!
PROOF. Noninterference over whole runs: the consumer's side (`ready`, `takes`) reaches nothing the framer reads (R32), and the
status (`dbg`, `phase`) reaches nothing at all (R28, R29).
-/

namespace Sys2Proof.Machine

open Sys2Proof.Safety

/-! ### The consumer's side -/

/-- The states agree in every field but `ready` and the observation. -/
def AgreeButConsumer (t u : State) : Prop := t = { u with ready := t.ready, takes := t.takes }

theorem AgreeButConsumer.refl (s : State) : AgreeButConsumer s s := rfl

/-- TAKE writes the consumer's side only. -/
theorem AgreeButConsumer.take {t u : State} (h : AgreeButConsumer t u) : AgreeButConsumer (takeLatch t) u := by
  rw [AgreeButConsumer] at h ⊢
  rw [takeLatch_eq, h]

/-- What the Framer writes outside the consumer's side it does not read from there. -/
theorem frameTick_with_consumer (u : State) (r : Bool) (rs : List TakeResult) :
    AgreeButConsumer (frameTick { u with ready := r, takes := rs }) (frameTick u) := by
  simp only [AgreeButConsumer, frameTick_eq]
  split
  · rfl
  · split <;> rfl

/-- Every other operation keeps the agreement when both states apply it. -/
theorem AgreeButConsumer.after {t u : State} (h : AgreeButConsumer t u) {i : Instr} (hi : i ≠ .take) :
    AgreeButConsumer (after i t) (after i u) := by
  rw [AgreeButConsumer] at h
  rw [h]
  cases i with
  | edge lvl => rfl
  | tick => exact frameTick_with_consumer u t.ready t.takes
  | take => exact absurd rfl hi
  | reset => rfl

theorem AgreeButConsumer.afterAll_filter {t u : State} (h : AgreeButConsumer t u) (ops : List Instr) :
    AgreeButConsumer (afterAll ops t) (afterAll (ops.filter fun i => i ≠ .take) u) := by
  induction ops generalizing t u with
  | nil => exact h
  | cons i is ih =>
    by_cases hi : i = .take
    case pos =>
      subst hi
      exact ih h.take
    case neg =>
      rw [List.filter_cons_of_pos (by simpa using hi)]
      exact ih (h.after hi)

/-- Settles O15: the two runs start in one state and keep the agreement. -/
theorem consumerCannotDisturbFraming : Obligations.ConsumerCannotDisturbFraming := fun ops s =>
  ⟨_, _, runOps_eq_afterAll ops s, runOps_eq_afterAll _ s, (AgreeButConsumer.refl s).afterAll_filter ops⟩

/-! ### The status -/

/-- The states agree in every field but `dbg` and `phase`. -/
def AgreeButStatus (t u : State) : Prop := u = { t with dbg := u.dbg, phase := u.phase }

theorem frameTick_with_status (t : State) (d : Bool) (ph : Phase) :
    AgreeButStatus (frameTick t) (frameTick { t with dbg := d, phase := ph }) := by
  simp only [AgreeButStatus, frameTick_eq]
  split
  · rfl
  · split <;> rfl

/-- No operation reads the status. -/
theorem AgreeButStatus.after {t u : State} (h : AgreeButStatus t u) (i : Instr) :
    AgreeButStatus (after i t) (after i u) := by
  rw [AgreeButStatus] at h
  rw [h]
  cases i with
  | edge lvl => rfl
  | tick => exact frameTick_with_status t u.dbg u.phase
  | take => simp only [after_take, takeLatch_eq]; rfl
  | reset => rfl

theorem AgreeButStatus.afterAll {t u : State} (h : AgreeButStatus t u) (ops : List Instr) :
    AgreeButStatus (afterAll ops t) (afterAll ops u) := by
  induction ops generalizing t u with
  | nil => exact h
  | cons i is ih => exact ih (h.after i)

/-- Settles O40: the two starts agree but for the status, and every operation keeps it so. -/
theorem statusNeverInfluencesTheBlock : Obligations.StatusNeverInfluencesTheBlock := fun ops s d ph =>
  have hstart : AgreeButStatus s { s with dbg := d, phase := ph } := rfl
  ⟨_, _, runOps_eq_afterAll ops s, runOps_eq_afterAll ops _, hstart.afterAll ops⟩

end Sys2Proof.Machine
end

section
/-!
PROOF. One clk cycle and runs of them (R112, R138, R139): the cycle's operations act on the block as supplied words would, and
around them only the realisation's registers move.
-/

namespace Sys2Proof.Machine

open Sys2Proof.Safety

/-! ### One cycle -/

/-- The operations of the cycle in their order (R112). -/
def cycleOps (p : Pins) (s : State) : List Instr := coincidentOrder (cycleEvents p s)

/-- The state a clk cycle with legal parameters leaves. -/
def cycleAfter (p : Pins) (s : State) : State :=
  presentResult (cycleOps p s) (afterAll (cycleOps p s) (deliverPending (shiftLines p s)))

theorem execCycle_eq_cycleAfter {s : State} (h : s.cfg.checkCycle = none) (p : Pins) :
    execCycle p s = .next (cycleAfter p s) := execCycle_next p s h

/-- The two parts before the operations write the realisation's registers only. -/
theorem deliverPending_shiftLines_eq (p : Pins) (s : State) :
    deliverPending (shiftLines p s) = { s with front := (deliverPending (shiftLines p s)).front } := rfl

/-- R112, R138: for the block a cycle is its operations; around them only the realisation's registers move. -/
theorem cycleAfter_eq (p : Pins) (s : State) :
    cycleAfter p s = { afterAll (cycleOps p s) s with front := (cycleAfter p s).front } := by
  rw [cycleAfter, presentResult_eq, deliverPending_shiftLines_eq, afterAll_with_front]

@[simp] theorem cycleAfter_cfg (p : Pins) (s : State) : (cycleAfter p s).cfg = s.cfg := by
  rw [cycleAfter_eq, afterAll_cfg]

@[simp] theorem cycleAfter_inputs (p : Pins) (s : State) : (cycleAfter p s).inputs = s.inputs := by
  rw [cycleAfter_eq, afterAll_inputs]

theorem cycleAfter_sclkSync (p : Pins) (s : State) :
    (cycleAfter p s).front.sclkSync = shiftIn p.sclk s.front.sclkSync := by
  rw [cycleAfter, (presentResult_sync _ _).1, afterAll_front]
  rfl

theorem cycleAfter_sdataSync (p : Pins) (s : State) :
    (cycleAfter p s).front.sdataSync = shiftIn p.sdata s.front.sdataSync := by
  rw [cycleAfter, (presentResult_sync _ _).2, afterAll_front]
  rfl

/-- R138: a step that finds a clk cycle in front is that cycle. -/
theorem step_cycle {s : State} {p : Pins} {rest : List Input} (hcheck : s.cfg.check = none)
    (hcycle : s.cfg.checkCycle = none) (hinputs : s.inputs = .cycle p :: rest) :
    step s = .next (cycleAfter p { s with inputs := rest }) :=
  (step_cons hcheck hinputs).trans (execCycle_eq_cycleAfter (s := { s with inputs := rest }) hcycle p)

/-! ### The operations of a cycle -/

/-- R112: a RESET stands alone. -/
theorem cycleOps_of_reset {p : Pins} (h : p.reset = true) (s : State) : cycleOps p s = [.reset] := by
  simp [cycleOps, cycleEvents, coincidentOrder, h]

/-- The part of a cycle's operations before its TAKE. -/
def cycleFramerOps (p : Pins) (s : State) : List Instr :=
  (detectEdge s (shiftLines p s)).toList.map Instr.edge ++ if p.tick then [Instr.tick] else []

theorem cycleOps_of_no_reset {p : Pins} (h : p.reset = false) (s : State) :
    cycleOps p s = cycleFramerOps p s ++ if p.take then [Instr.take] else [] := by
  simp [cycleOps, cycleFramerOps, cycleEvents, coincidentOrder, h]

theorem take_not_mem_cycleFramerOps (p : Pins) (s : State) : Instr.take ∉ cycleFramerOps p s := by
  simp [cycleFramerOps]

theorem take_not_mem_cycleOps {p : Pins} (h : p.take = false ∨ p.reset = true) (s : State) :
    Instr.take ∉ cycleOps p s := by
  cases hreset : p.reset with
  | true => simp [cycleOps_of_reset hreset]
  | false =>
    have htake : p.take = false := h.resolve_right (by simp [hreset])
    simpa [cycleOps_of_no_reset hreset, htake] using take_not_mem_cycleFramerOps p s

/-- Settles O48: the step's operations are those written out, and the step does nothing else to the block. -/
theorem coincidentEventsAreOrdered : Obligations.CoincidentEventsAreOrdered := fun p s rest hcheck hcycle hinputs =>
  ⟨_, _, step_cycle hcheck hcycle hinputs, runOps_eq_afterAll (cycleOps p { s with inputs := rest }) _,
    cycleAfter_eq p _⟩

/-- Settles O49: the EDGE is applied first and raises the count above the snapshot, so the TICK is in progress; a TAKE after it
leaves both. -/
theorem coincidentEdgePreventsFalseGap : Obligations.CoincidentEdgePreventsFalseGap := by
  intro p s rest lvl hcheck hcycle hsnapshot hsat hinputs hreset htick hedge
  refine ⟨_, step_cycle hcheck hcycle hinputs, ?_⟩
  have hops : cycleOps p { s with inputs := rest } =
      .edge lvl :: .tick :: if p.take then [Instr.take] else [] := by
    have hedge' : detectEdge { s with inputs := rest } (shiftLines p { s with inputs := rest }) = some lvl := hedge
    simp [cycleOps_of_no_reset hreset, cycleFramerOps, hedge', htick]
  have hsnap : s.lastBitsRead ≤ s.bitsRead := hsnapshot
  have hcount : (recordBit lvl { s with inputs := rest }).bitsRead = s.bitsRead + 1 := if_pos hsat
  have hinProgress := frameTick_inProgress (s := recordBit lvl { s with inputs := rest })
    (by rw [hcount]; omega) (by rw [hcount, recordBit_lastBitsRead]; dsimp only; omega)
  rw [cycleAfter_eq, hops, afterAll_cons, afterAll_cons, after_edge, after_tick, hinProgress]
  cases p.take with
  | true => simpa using hcount
  | false => exact ⟨rfl, hcount⟩

end Sys2Proof.Machine
end

section
/-!
PROOF. The output of TAKE in the realisation (R139): at once with latency 0, one cycle later with latency 1, and held in between.
-/

namespace Sys2Proof.Machine

open Sys2Proof.Safety

/-! ### Presenting a result -/

theorem presentResult_of_no_take {ops : List Instr} (h : Instr.take ∉ ops) (s : State) : presentResult ops s = s :=
  if_neg h

theorem presentResult_of_take {ops : List Instr} {s : State} {r : TakeResult} (h : Instr.take ∈ ops)
    (hr : s.takes.getLast? = some r) : presentResult ops s = presentTake r s := by
  rw [presentResult, if_pos h, hr]

/-- With a latency the output register is not written in the cycle of the TAKE. -/
theorem presentResult_takeOut {s : State} (h : s.cfg.takeLatency ≠ 0) (ops : List Instr) :
    (presentResult ops s).front.takeOut = s.front.takeOut := by
  unfold presentResult
  split
  · split
    · rw [presentTake_takeOut, if_neg h]
    · rfl
  · rfl

/-! ### The cycle -/

theorem afterAll_takes_of_no_take {ops : List Instr} (h : Instr.take ∉ ops) (s : State) :
    (afterAll ops s).takes = s.takes := by
  induction ops generalizing s with
  | nil => rfl
  | cons i is ih =>
    obtain ⟨hi, his⟩ := not_or.mp (mt List.mem_cons.mpr h)
    rw [afterAll_cons, ih his, after_takes_of_ne_take (Ne.symm hi)]

/-- A cycle without a TAKE: a result on its way has reached the output, and nothing is on its way. -/
theorem cycleAfter_front_of_no_take {p : Pins} (h : p.take = false ∨ p.reset = true) (s : State) :
    (cycleAfter p s).front.takeOut = s.front.takePending.getD s.front.takeOut ∧
      (cycleAfter p s).front.takePending = none := by
  rw [cycleAfter, presentResult_of_no_take (take_not_mem_cycleOps h s), afterAll_front]
  exact ⟨rfl, rfl⟩

/-- With a latency any cycle brings what was on its way to the output. -/
theorem cycleAfter_takeOut_of_latency {s : State} (h : s.cfg.takeLatency ≠ 0) (p : Pins) :
    (cycleAfter p s).front.takeOut = s.front.takePending.getD s.front.takeOut := by
  rw [cycleAfter, presentResult_takeOut (by simpa using h), afterAll_front]
  rfl

/-- A cycle with a TAKE: one result more, which goes to the output or on its way. -/
theorem cycleAfter_of_take {p : Pins} (htake : p.take = true) (hreset : p.reset = false) (s : State) :
    ∃ r, (cycleAfter p s).takes = s.takes ++ [r] ∧
      (s.cfg.takeLatency = 0 → (cycleAfter p s).front.takeOut = r ∧ (cycleAfter p s).front.takePending = none) ∧
      (s.cfg.takeLatency ≠ 0 → (cycleAfter p s).front.takePending = some r) := by
  have hops : cycleOps p s = cycleFramerOps p s ++ [.take] := by rw [cycleOps_of_no_reset hreset, htake, if_pos rfl]
  have htakes (u : State) : ∃ r, (afterAll (cycleOps p s) u).takes = u.takes ++ [r] := by
    refine ⟨takeResult (afterAll (cycleFramerOps p s) u), ?_⟩
    rw [hops, afterAll_append, afterAll_cons, afterAll_nil, after_take, takeLatch_takes,
      afterAll_takes_of_no_take (take_not_mem_cycleFramerOps p s)]
  obtain ⟨r, hr⟩ := htakes (deliverPending (shiftLines p s))
  have hcycle : cycleAfter p s = presentTake r (afterAll (cycleOps p s) (deliverPending (shiftLines p s))) :=
    presentResult_of_take (by simp [hops]) (by simp [hr])
  refine ⟨r, ?_, fun hlatency => ?_, fun hlatency => ?_⟩
  · rw [cycleAfter, presentResult_takes, hr, deliverPending_takes, shiftLines_takes]
  · simp [hcycle, hlatency]
  · simp [hcycle, hlatency]

/-- Settles O51: a TAKE's result is at the output or on its way; the next cycle, whatever it brings, delivers what is on its
way, and a cycle without a TAKE puts nothing there. -/
theorem takeResultReachesTheOutput : Obligations.TakeResultReachesTheOutput := by
  intro p s t hcycle ht
  obtain rfl : cycleAfter p s = t := by
    simpa only [execCycle_eq_cycleAfter hcycle, Host.Outcome.next.injEq] using ht
  constructor
  · intro htake hreset
    obtain ⟨r, htakes, hnow, hlater⟩ := cycleAfter_of_take htake hreset s
    have hlast : (cycleAfter p s).takes.getLast? = some r := by rw [htakes, List.getLast?_concat]
    refine ⟨by rw [htakes, List.length_append, List.length_singleton], fun h0 => ?_, fun h1 p' t' ht' => ?_⟩
    · obtain ⟨hout, hpending⟩ := hnow h0
      exact ⟨by rw [hlast, takeOutput, hout], hpending⟩
    · have hpending := hlater (by omega)
      obtain rfl : cycleAfter p' (cycleAfter p s) = t' := by
        have hcycle' : (cycleAfter p s).cfg.checkCycle = none := by rwa [cycleAfter_cfg]
        simpa only [execCycle_eq_cycleAfter hcycle', Host.Outcome.next.injEq] using ht'
      have hout := cycleAfter_takeOut_of_latency (s := cycleAfter p s) (by rw [cycleAfter_cfg]; omega) p'
      refine ⟨?_, fun hno => (cycleAfter_front_of_no_take hno (cycleAfter p s)).2⟩
      rw [hlast, takeOutput, hout, hpending, Option.getD_some]
  · intro hno hpending
    obtain ⟨hout, hnone⟩ := cycleAfter_front_of_no_take hno s
    exact ⟨by rw [takeOutput, hout, hpending, Option.getD_none, takeOutput], hnone⟩

end Sys2Proof.Machine
end

section
/-!
PROOF. From sampled lines to EDGEs (R10, R63, R138): what the synchronisers show cycle by cycle, and the EDGEs that come of it.
-/

namespace Sys2Proof.Machine

open Sys2Proof.Safety

/-! ### The active transition (R10) -/

theorem activeEdge_of_not_invert {c : Config} (h : c.invert = false) : c.activeEdge = c.activeEdgeNoninv := by
  simp [Config.activeEdge, h]

theorem activeEdge_of_invert {c : Config} (h : c.invert = true) : c.activeEdge = c.activeEdgeNoninv.opposite := by
  simp [Config.activeEdge, h]

theorem isActiveEdge_rising_iff (before after : Bool) :
    isActiveEdge .rising before after = true ↔ before = false ∧ after = true := by
  simp [isActiveEdge]

theorem isActiveEdge_falling_iff (before after : Bool) :
    isActiveEdge .falling before after = true ↔ before = true ∧ after = false := by
  simp [isActiveEdge]

/-! ### The synchronisers (R138) -/

theorem shiftIn_ne_nil {stages : List Bool} (h : stages ≠ []) (level : Bool) : shiftIn level stages ≠ [] := by
  rw [← List.length_pos_iff, length_shiftIn]
  exact List.length_pos_of_ne_nil h

/-- The oldest stage is the first to come out. -/
theorem reverse_eq_syncLevel_cons {stages : List Bool} (h : stages ≠ []) :
    stages.reverse = syncLevel stages :: stages.dropLast.reverse := by
  have hlast : syncLevel stages = stages.getLast h := by
    rw [syncLevel, List.getLastD_eq_getLast?, List.getLast?_eq_some_getLast h, Option.getD_some]
  have hsplit := congrArg List.reverse (List.dropLast_append_getLast h)
  rw [hlast, ← hsplit, List.reverse_append, List.reverse_singleton, List.singleton_append]

/-- Read oldest first, a synchroniser with the levels still to come loses its head when one of them enters. -/
theorem reverse_shiftIn_append (level : Bool) (stages levels : List Bool) :
    (shiftIn level stages).reverse ++ levels = (stages.reverse ++ level :: levels).tail := by
  have hlevels : stages.reverse ++ level :: levels = (level :: stages).reverse ++ levels := by simp
  rw [shiftIn, hlevels, List.tail_append_of_ne_nil (by simp), List.tail_reverse]

/-- What the two synchronisers show after each of the cycles that bring the samples, clock and data. -/
def syncSamples (sclk sdata : List Bool) (samples : List (Bool × Bool)) : List (Bool × Bool) :=
  (((sclk.reverse ++ samples.map Prod.fst).zip (sdata.reverse ++ samples.map Prod.snd)).drop 1).take samples.length

theorem syncSamples_cons {sclk sdata : List Bool} (hsclk : sclk ≠ []) (hsdata : sdata ≠ []) (x : Bool × Bool)
    (samples : List (Bool × Bool)) :
    syncSamples sclk sdata (x :: samples) =
      (syncLevel (shiftIn x.1 sclk), syncLevel (shiftIn x.2 sdata)) ::
        syncSamples (shiftIn x.1 sclk) (shiftIn x.2 sdata) samples := by
  rw [syncSamples, syncSamples, List.map_cons, List.map_cons, List.length_cons, List.drop_one, List.tail_zip,
    ← reverse_shiftIn_append, ← reverse_shiftIn_append, reverse_eq_syncLevel_cons (shiftIn_ne_nil hsclk x.1),
    reverse_eq_syncLevel_cons (shiftIn_ne_nil hsdata x.2)]
  rfl

theorem syncSamples_nil (sclk sdata : List Bool) : syncSamples sclk sdata [] = [] := List.take_zero

/-! ### Cycles that carry line levels only -/

/-- The pins of one sample (clock, data), no strobe. -/
def linePins (x : Bool × Bool) : Pins := { sclk := x.1, sdata := x.2, tick := false, take := false, reset := false }

/-- R138: such a cycle has one EDGE if the synchronised clock makes the active transition, and nothing else. -/
theorem cycleOps_linePins (x : Bool × Bool) (s : State) :
    cycleOps (linePins x) s =
      if isActiveEdge s.cfg.activeEdge (syncLevel s.front.sclkSync) (syncLevel (shiftIn x.1 s.front.sclkSync)) then
        [.edge (syncLevel (shiftIn x.2 s.front.sdataSync))]
      else [] := by
  rw [cycleOps_of_no_reset rfl, cycleFramerOps, detectEdge]
  split
  case isTrue hactive => exact (if_pos hactive).symm
  case isFalse hquiet => exact (if_neg hquiet).symm

/-- The EDGEs of the cycles that bring the samples (R63). -/
def lineEdges (s : State) (samples : List (Bool × Bool)) : List Instr :=
  lineOps s.cfg.activeEdge (syncLevel s.front.sclkSync) (syncSamples s.front.sclkSync s.front.sdataSync samples)

theorem lineEdges_nil (s : State) : lineEdges s [] = [] := by rw [lineEdges, syncSamples_nil, lineOps]

/-- The first cycle's EDGE, if it has one, and the EDGEs of the cycles after it. -/
theorem lineEdges_cons {s : State} (hsclk : s.front.sclkSync ≠ []) (hsdata : s.front.sdataSync ≠ []) (x : Bool × Bool)
    (samples : List (Bool × Bool)) :
    lineEdges s (x :: samples) = cycleOps (linePins x) s ++ lineEdges (cycleAfter (linePins x) s) samples := by
  rw [lineEdges, lineEdges, cycleAfter_cfg, cycleAfter_sclkSync, cycleAfter_sdataSync, syncSamples_cons hsclk hsdata,
    lineOps, cycleOps_linePins]
  rfl

/-- The synchronisers keep their depth. -/
theorem cycleAfter_sync_ne_nil {s : State} (hsclk : s.front.sclkSync ≠ []) (hsdata : s.front.sdataSync ≠ []) (p : Pins) :
    (cycleAfter p s).front.sclkSync ≠ [] ∧ (cycleAfter p s).front.sdataSync ≠ [] := by
  rw [cycleAfter_sclkSync, cycleAfter_sdataSync]
  exact ⟨shiftIn_ne_nil hsclk _, shiftIn_ne_nil hsdata _⟩

/-- The states agree in every field but the realisation's registers. -/
def AgreeButFront (t u : State) : Prop := t = { u with front := t.front }

theorem AgreeButFront.trans {t u v : State} (htu : AgreeButFront t u) (huv : AgreeButFront u v) : AgreeButFront t v := by
  rw [AgreeButFront] at *
  rw [htu, huv]

theorem AgreeButFront.afterAll {t u : State} (h : AgreeButFront t u) (ops : List Instr) :
    AgreeButFront (afterAll ops t) (afterAll ops u) := by
  rw [AgreeButFront] at *
  rw [h, afterAll_with_front]

theorem AgreeButFront.with_inputs {t u : State} (h : AgreeButFront t u) (x : List Input) :
    AgreeButFront { t with inputs := x } { u with inputs := x } := by
  rw [AgreeButFront] at *
  rw [h]

/-- R6: a cycle's operations do not read the queue. -/
theorem cycleAfter_with_no_input (p : Pins) (s : State) :
    AgreeButFront { cycleAfter p s with inputs := [] } (afterAll (cycleOps p s) { s with inputs := [] }) := by
  have hagree : AgreeButFront (cycleAfter p s) (afterAll (cycleOps p s) s) := cycleAfter_eq p s
  rw [afterAll_with_inputs]
  exact hagree.with_inputs []

/-- Along a run of such cycles the block sees the EDGEs of the synchronised lines. -/
theorem run_lineCycles {s : State} {samples : List (Bool × Bool)} (hcheck : s.cfg.check = none)
    (hcycle : s.cfg.checkCycle = none) (hinputs : s.inputs = lineCycles samples) (hsclk : s.front.sclkSync ≠ [])
    (hsdata : s.front.sdataSync ≠ []) :
    ∃ t : State, Host.Core.run Sys2Proof.core samples.length s = .next t ∧
      AgreeButFront t (afterAll (lineEdges s samples) { s with inputs := [] }) := by
  induction samples generalizing s with
  | nil =>
    refine ⟨s, rfl, ?_⟩
    rw [lineEdges_nil, afterAll_nil, AgreeButFront]
    exact congrArg (fun x => { s with inputs := x }) hinputs
  | cons x samples ih =>
    have hstep := step_cycle hcheck hcycle hinputs
    have hedges : lineEdges s (x :: samples) = _ :=
      lineEdges_cons (s := { s with inputs := lineCycles samples }) hsclk hsdata x samples
    obtain ⟨hsclk', hsdata'⟩ := cycleAfter_sync_ne_nil (s := { s with inputs := lineCycles samples }) hsclk hsdata (linePins x)
    obtain ⟨t, hrun, ht⟩ := ih (by simpa) (by simpa) (cycleAfter_inputs _ _) hsclk' hsdata'
    refine ⟨t, (core_run_succ hstep samples.length).trans hrun, ht.trans ?_⟩
    rw [hedges, afterAll_append]
    exact (cycleAfter_with_no_input (linePins x) { s with inputs := lineCycles samples }).afterAll _

/-- R138: with at least two stages no synchroniser is empty. -/
theorem sync_ne_nil {s : State} (hcycle : s.cfg.checkCycle = none) (hfront : FrontInv s) :
    s.front.sclkSync ≠ [] ∧ s.front.sdataSync ≠ [] := by
  have hstages : 2 ≤ s.cfg.syncStages := by
    by_contra hfew
    simp [Config.checkCycle, Nat.lt_of_not_le hfew] at hcycle
  obtain ⟨hclock, hdata⟩ := hfront
  constructor <;> (rw [← List.length_pos_iff]; omega)

/-- Settles O50: the direction of the active transition, and the EDGEs of the synchronised lines, which read none of the
supplied inputs. -/
theorem linesYieldOneEdgePerActiveTransition : Obligations.LinesYieldOneEdgePerActiveTransition := by
  refine ⟨fun c => ⟨activeEdge_of_not_invert, fun hinvert hrising => ?_, fun hinvert hfalling => ?_⟩,
    fun before after => ⟨isActiveEdge_rising_iff before after, isActiveEdge_falling_iff before after⟩,
    fun s samples hcheck hcycle hfront => ?_⟩
  · rw [activeEdge_of_invert hinvert, hrising, Transition.opposite]
  · rw [activeEdge_of_invert hinvert, hfalling, Transition.opposite]
  · obtain ⟨hsclk, hsdata⟩ := sync_ne_nil hcycle hfront
    obtain ⟨t, hrun, ht⟩ := run_lineCycles (s := { s with inputs := lineCycles samples }) hcheck hcycle rfl hsclk hsdata
    exact ⟨t, _, hrun, runOps_eq_afterAll _ _, ht⟩

end Sys2Proof.Machine
end

section
/-!
PROOF. The envelope in time (R128, R129): what an exactly periodic timer puts between two EDGEs, and between two transmissions.
-/

namespace Sys2Proof.Machine

open Sys2Proof.Safety

/-! ### Splitting a list at the nearest element of a kind -/

/-- The first element with the property, and what stands before it. -/
theorem exists_append_cons_first {α : Type} {p : α → Prop} {l : List α} (h : ∃ x ∈ l, p x) :
    ∃ xs x ys, l = xs ++ x :: ys ∧ p x ∧ ∀ y ∈ xs, ¬ p y := by
  classical
  obtain ⟨x, hfind⟩ := Option.isSome_iff_exists.mp (List.find?_isSome (p := fun x => decide (p x)).mpr (by simpa using h))
  obtain ⟨hx, xs, ys, hsplit, hxs⟩ := List.find?_eq_some_iff_append.mp hfind
  exact ⟨xs, x, ys, hsplit, by simpa using hx, by simpa using hxs⟩

/-- The last element with the property, and what stands after it. -/
theorem exists_append_cons_last {α : Type} {p : α → Prop} {l : List α} (h : ∃ x ∈ l, p x) :
    ∃ xs x ys, l = xs ++ x :: ys ∧ p x ∧ ∀ y ∈ ys, ¬ p y := by
  obtain ⟨xs, x, ys, hsplit, hx, hxs⟩ := exists_append_cons_first (l := l.reverse) (by simpa using h)
  refine ⟨ys.reverse, x, xs.reverse, ?_, hx, fun y hy => hxs y (List.mem_reverse.mp hy)⟩
  have := congrArg List.reverse hsplit
  simpa using this

/-- A list's first element, if it is not `a`, stands before `a`. -/
theorem mem_of_append_cons_eq_cons {α : Type} {xs ys rest : List α} {a b : α} (h : xs ++ a :: ys = b :: rest)
    (hne : a ≠ b) : b ∈ xs := by
  cases xs with
  | nil => exact absurd (List.cons.inj h).1 hne
  | cons x xs =>
    rw [← (List.cons.inj h).1]
    exact List.mem_cons_self

/-- A list's last element, if it is not `a`, stands after `a`. -/
theorem mem_of_append_cons_eq_concat {α : Type} {xs ys rest : List α} {a b : α} (h : xs ++ a :: ys = rest ++ [b])
    (hne : a ≠ b) : b ∈ ys := by
  have hreverse : ys.reverse ++ a :: xs.reverse = b :: rest.reverse := by
    simpa using congrArg List.reverse h
  exact List.mem_reverse.mp (mem_of_append_cons_eq_cons hreverse hne)

/-! ### A timed run around two neighbouring TICKs -/

/-- The operation is an EDGE. -/
def IsEdge (x : Timed) : Prop := ∃ lvl, x.2 = Instr.edge lvl

/-- In order of time, what stands earlier is not later. -/
theorem le_of_timeOrdered {xs ys zs : List Timed} {a b : Timed} (h : TimeOrdered (xs ++ a :: (ys ++ b :: zs))) :
    a.1 ≤ b.1 := by
  have hpair := ((List.pairwise_append.mp h).2.1 |> List.pairwise_cons.mp).1 b (by simp)
  obtain hlt | ⟨heq, -⟩ := hpair
  · exact hlt.le
  · exact heq.le

/-- R112: an EDGE after a TICK is strictly later, since at one instant it would stand before it. -/
theorem tick_lt_edge_of_timeOrdered {xs ys zs : List Timed} {t e : Nat} {lvl : Bool}
    (h : TimeOrdered (xs ++ (t, Instr.tick) :: (ys ++ (e, Instr.edge lvl) :: zs))) : t < e := by
  have hpair := ((List.pairwise_append.mp h).2.1 |> List.pairwise_cons.mp).1 (e, Instr.edge lvl) (by simp)
  obtain hlt | ⟨-, hnot⟩ := hpair
  · exact hlt
  · exact absurd ⟨rfl, lvl, rfl⟩ hnot

/-- R128, R129: an EDGE lies between two TICKs one period apart. Without one, the EDGEs around them would be more than a period
apart. -/
theorem edge_between_ticks {gap period : Nat} {before between after : List Timed} {t t' : Nat} (hgap : gap ≤ period)
    (hordered : TimeOrdered (before ++ (t, Instr.tick) :: (between ++ (t', Instr.tick) :: after)))
    (hedges : EdgesWithin gap (before ++ (t, Instr.tick) :: (between ++ (t', Instr.tick) :: after)))
    (hticks : TicksEvery period (before ++ (t, Instr.tick) :: (between ++ (t', Instr.tick) :: after)))
    (hbetween : ∀ x ∈ between, x.2 ≠ Instr.tick) (hbefore : ∃ x ∈ before, IsEdge x) (hafter : ∃ x ∈ after, IsEdge x) :
    ∃ x ∈ between, IsEdge x := by
  by_contra hnone
  push Not at hnone
  have hperiod : t' = t + period := hticks before between after t t' rfl hbetween
  obtain ⟨xs, ⟨e, op⟩, ys, rfl, ⟨lvl, hop⟩, hys⟩ := exists_append_cons_last hbefore
  obtain ⟨zs, ⟨e', op'⟩, ws, rfl, ⟨lvl', hop'⟩, hzs⟩ := exists_append_cons_first hafter
  dsimp only at hop hop'
  subst hop hop'
  have hearly : e ≤ t := by
    simp only [List.append_assoc, List.cons_append] at hordered
    exact le_of_timeOrdered hordered
  have hlate : t' < e' := by
    have hsplit : TimeOrdered ((xs ++ (e, .edge lvl) :: (ys ++ (t, .tick) :: between)) ++
        (t', .tick) :: (zs ++ (e', .edge lvl') :: ws)) := by
      simpa only [List.append_assoc, List.cons_append] using hordered
    exact tick_lt_edge_of_timeOrdered hsplit
  have hclose : e' ≤ e + gap := by
    refine hedges xs (ys ++ (t, .tick) :: (between ++ (t', .tick) :: zs)) ws e e' lvl lvl' ?_ ?_
    · simp only [List.append_assoc, List.cons_append]
    · intro x hx l hl
      simp only [List.mem_append, List.mem_cons] at hx
      obtain hx | rfl | hx | rfl | hx := hx
      · exact hys x hx ⟨l, hl⟩
      · cases hl
      · exact hnone x hx ⟨l, hl⟩
      · cases hl
      · exact hzs x hx ⟨l, hl⟩
  omega

/-- Two TICKs of a timed run's operations are two TICKs of the run. -/
theorem untimed_eq_ticks {tr : List Timed} {before between after : List Instr}
    (h : untimed tr = before ++ Instr.tick :: (between ++ Instr.tick :: after)) :
    ∃ (bs ms as : List Timed) (t t' : Nat), tr = bs ++ (t, Instr.tick) :: (ms ++ (t', Instr.tick) :: as) ∧
      untimed ms = between := by
  obtain ⟨bs, rest, rfl, -, hrest⟩ := List.map_eq_append_iff.mp h
  obtain ⟨⟨t, op⟩, rest, rfl, hop, hrest⟩ := List.map_eq_cons_iff.mp hrest
  obtain ⟨ms, rest, rfl, hms, hrest⟩ := List.map_eq_append_iff.mp hrest
  obtain ⟨⟨t', op'⟩, as, rfl, hop', -⟩ := List.map_eq_cons_iff.mp hrest
  dsimp only at hop hop'
  subst hop hop'
  exact ⟨bs, ms, as, t, t', rfl, hms⟩

/-- Settles O52: the run begins and ends with an EDGE, so any two of its TICKs have EDGEs around them. -/
theorem periodicTimerMeetsEnvIntra : Obligations.PeriodicTimerMeetsEnvIntra := by
  intro gap period tr hgap hordered hedges hticks hfirst hlast before between after hsplit hbetween
  obtain ⟨bs, ms, as, t, t', rfl, rfl⟩ := untimed_eq_ticks hsplit
  obtain ⟨e, lvl, rest, hhead⟩ := hfirst
  obtain ⟨e', lvl', rest', htail⟩ := hlast
  rw [← List.cons_append, ← List.append_assoc] at htail
  have hbefore : ∃ x ∈ bs, IsEdge x := ⟨_, mem_of_append_cons_eq_cons hhead (by simp), lvl, rfl⟩
  have hafter : ∃ x ∈ as, IsEdge x := ⟨_, mem_of_append_cons_eq_concat htail (by simp), lvl', rfl⟩
  have hms : ∀ x ∈ ms, x.2 ≠ Instr.tick := fun x hx hx2 => hbetween (hx2 ▸ List.mem_map_of_mem hx)
  obtain ⟨x, hx, level, hlevel⟩ := edge_between_ticks hgap hordered hedges hticks hms hbefore hafter
  exact ⟨level, hlevel ▸ List.mem_map_of_mem hx⟩

/-- Settles O53: the two TICKs after `lastEdge` come within two periods of it, which is less than the gap. -/
theorem periodicTimerTicksTwiceInTheGap : Obligations.PeriodicTimerTicksTwiceInTheGap := by
  intro c start lastEdge firstEdge henv hstart hgap
  obtain ⟨hshort, hlong⟩ : c.maxInterBitGap < c.tickPeriod ∧ 2 * c.tickPeriod < c.packetGapDuration := by
    simpa [Config.envelope] using henv
  have hdiv := Nat.div_add_mod' (lastEdge - start) c.tickPeriod
  have hmod := Nat.mod_lt (lastEdge - start) (Nat.zero_lt_of_lt hshort)
  refine ⟨(lastEdge - start) / c.tickPeriod + 1, ?_, ?_⟩
  · rw [tickTime, Nat.add_one_mul]
    omega
  · rw [tickTime, Nat.add_one_mul, Nat.add_one_mul]
    omega

end Sys2Proof.Machine
end

section
/-!
PROOF. Coming to rest (R85, R87, R143): what TICKs without an EDGE do to the framer, from rest, from any state that meets the
invariants, and at SAT.
-/

namespace Sys2Proof.Machine

open Sys2Proof.Safety

/-! ### Quiet runs -/

theorem AgreeButConsumer.atRest {t u : State} (h : AgreeButConsumer t u) (hrest : AtRest u) : AtRest t := by
  rw [AgreeButConsumer] at h
  rw [h]
  exact hrest

/-- Without its TAKEs a quiet run is its TICKs. -/
theorem filter_take_of_quiet {ops : List Instr} (h : Quiet ops) :
    (ops.filter fun i => i ≠ .take) = List.replicate (tickCount ops) .tick := by
  induction ops with
  | nil => rfl
  | cons i is ih =>
    have his : Quiet is := fun j hj => h j (List.mem_cons_of_mem i hj)
    obtain rfl | rfl := h i List.mem_cons_self
    · simpa [tickCount, List.replicate_succ] using ih his
    · simpa [tickCount] using ih his

/-- The framer cannot tell a quiet run from its TICKs (R32). -/
theorem afterAll_quiet_agrees {ops : List Instr} (h : Quiet ops) (s : State) :
    AgreeButConsumer (afterAll ops s) (afterAll (List.replicate (tickCount ops) .tick) s) := by
  rw [← filter_take_of_quiet h]
  exact (AgreeButConsumer.refl s).afterAll_filter ops

/-- R77: an idle TICK writes the status only. -/
theorem atRest_frameTick {s : State} (h : AtRest s) : AtRest (frameTick s) := by
  rw [frameTick_idle h.1.2.1]
  exact h

theorem atRest_afterAll_ticks {s : State} (h : AtRest s) (k : Nat) : AtRest (afterAll (List.replicate k .tick) s) := by
  induction k generalizing s with
  | zero => exact h
  | succ k ih => exact ih (atRest_frameTick h)

theorem atRest_afterAll_quiet {ops : List Instr} {s : State} (hquiet : Quiet ops) (h : AtRest s) :
    AtRest (afterAll ops s) :=
  (afterAll_quiet_agrees hquiet s).atRest (atRest_afterAll_ticks h _)

/-! ### Two TICKs without an EDGE (R143) -/

/-- The invariants with no bit read are rest. -/
theorem atRest_of_inv {s : State} (h : Inv s) (hbits : s.bitsRead = 0) : AtRest s := by
  have hmask : s.nextBitMask = if s.bitsRead < 24 then 1#24 <<< s.bitsRead else 0#24 := h.mask
  have hsnapshot : s.lastBitsRead ≤ s.bitsRead := h.snapshot
  have hbuffer : s.buffer = 0#24 := by
    apply BitVec.eq_of_getLsbD_eq
    intro k hk
    rw [h.buffer k (by omega) (by omega), BitVec.getLsbD_zero]
  exact ⟨⟨hbuffer, hbits, by simpa [hbits] using hmask⟩, by omega⟩

/-- The second TICK finds the count where the first one left it. -/
theorem atRest_frameTick_frameTick {s : State} (h : Inv s) : AtRest (frameTick (frameTick s)) := by
  by_cases hbits : s.bitsRead = 0
  case pos => exact atRest_frameTick (atRest_frameTick (atRest_of_inv h hbits))
  case neg =>
    by_cases hsame : s.bitsRead = s.lastBitsRead
    case pos => exact atRest_frameTick (atRest_frameTick_of_gap hbits hsame)
    case neg =>
      rw [frameTick_inProgress hbits hsame]
      exact atRest_frameTick_of_gap hbits rfl

/-- Settles O43: two TICKs bring the framer to rest, and the others leave it there. -/
theorem twoTicksResynchronise : Obligations.TwoTicksResynchronise := by
  intro s gap hinv ⟨hquiet, hticks⟩
  refine ⟨afterAll gap s, runOps_eq_afterAll gap s, (afterAll_quiet_agrees hquiet s).atRest ?_⟩
  obtain ⟨k, hk⟩ := Nat.exists_eq_add_of_le' hticks
  rw [hk]
  exact atRest_afterAll_ticks (atRest_frameTick_frameTick hinv) k

/-! ### At SAT (R87, R134) -/

theorem afterAll_edges_bitsRead_of_sat {s : State} (h : s.bitsRead = s.cfg.sat) (lvls : List Bool) :
    (afterAll (lvls.map Instr.edge) s).bitsRead = s.bitsRead := by
  induction lvls generalizing s with
  | nil => rfl
  | cons lvl lvls ih =>
    have hstays : (recordBit lvl s).bitsRead = s.bitsRead := by rw [recordBit_bitsRead, if_neg (by omega)]
    exact (ih (hstays.trans h)).trans hstays

theorem atRest_edge_bitsRead {s : State} (h : AtRest s) (hsat : 0 < s.cfg.sat) (lvl : Bool) :
    (recordBit lvl s).bitsRead = 1 := by
  rw [recordBit_bitsRead, h.1.2.1, if_pos hsat]

/-- Settles O47: the EDGEs move neither the count nor the snapshot, so the TICK takes the gap branch with a count that is not
24. -/
theorem saturatedOverrunLooksLikeGap : Obligations.SaturatedOverrunLooksLikeGap := by
  intro s lvls lvl hsat hbits hlast
  generalize hu : afterAll (lvls.map Instr.edge) s = u
  have hcfg : u.cfg = s.cfg := by rw [← hu, afterAll_cfg]
  have hubits : u.bitsRead = s.cfg.sat := by rw [← hu, afterAll_edges_bitsRead_of_sat hbits, hbits]
  have hframe := afterAll_edges_frame lvls s
  rw [hu] at hframe
  have hulast : u.lastBitsRead = s.cfg.sat := by rw [hframe, hlast]
  have hgap := frameTick_gap (s := u) (by omega) (by omega)
  have hrest : AtRest (frameTick u) := atRest_frameTick_of_gap (by omega) (by omega)
  rw [if_neg (by omega), if_neg (by omega)] at hgap
  refine ⟨frameTick u, recordBit lvl (frameTick u), ?_, hrest, ?_, ?_, ?_, exec_edge lvl _,
    atRest_edge_bitsRead hrest (by rw [frameTick_cfg, hcfg]; omega) lvl⟩
  · rw [runOps_eq_afterAll, afterAll_append, hu]
    rfl
  · rw [hgap]
  · rw [hgap, hframe]
  · rw [hgap, hframe]

end Sys2Proof.Machine
end

section
/-!
PROOF. Framing one burst (R133, R141, R142): from rest, operations whose TICKs are spaced by EDGEs stay inside one burst, and the
TICK that finds no EDGE since the last one ends it.
-/

namespace Sys2Proof.Machine

open Sys2Proof.Safety

/-! ### Inside a burst -/

/-- R82: an in-progress TICK takes the snapshot and lowers the flag; it does not touch the accumulator under either policy. -/
theorem InBurst.frameTick {lvls : List Bool} {s : State} (h : InBurst true lvls s) (hsat : lvls.length ≤ s.cfg.sat) :
    InBurst false lvls (frameTick s) := by
  obtain ⟨hbits, hmoved⟩ := h.tick_inProgress hsat
  have hcount : s.bitsRead = lvls.length := by rw [h.holds.count]; omega
  rw [frameTick_inProgress hbits hmoved]
  exact ⟨h.holds.congr rfl rfl rfl rfl, h.started, hcount⟩

/-- One operation of a spaced run. -/
theorem InBurst.after {f : Bool} {lvls : List Bool} {s : State} {i : Instr} (h : InBurst f lvls s)
    (hspaced : spaced f [i] = true) (hreset : i ≠ .reset) (hsat : lvls.length + (levels [i]).length ≤ s.cfg.sat) :
    InBurst (flagAfter f [i]) (lvls ++ levels [i]) (after i s) := by
  cases i with
  | edge lvl =>
    have hsnapshot : s.lastBitsRead ≤ lvls.length := by
      have := h.snapshot
      split at this <;> omega
    refine ⟨h.holds.recordBit lvl, by simp [levels], ?_⟩
    rw [flagAfter, flagAfter, if_pos rfl, after_edge, recordBit_lastBitsRead, List.length_append]
    exact Nat.lt_succ_of_le hsnapshot
  | tick =>
    obtain rfl : f = true := by simpa [spaced] using hspaced
    simpa [levels, flagAfter] using h.frameTick (by simpa [levels] using hsat)
  | take =>
    refine ⟨?_, by simpa [levels] using h.started, by simpa [levels, flagAfter] using h.snapshot⟩
    simpa [levels] using h.holds.congr (takeLatch_buffer s) (takeLatch_bitsRead s) (takeLatch_nextBitMask s) (takeLatch_cfg s)
  | reset => exact absurd rfl hreset

theorem InBurst.afterAll {f : Bool} {lvls : List Bool} {s : State} {ops : List Instr} (h : InBurst f lvls s)
    (hspaced : spaced f ops = true) (hreset : Instr.reset ∉ ops) (hsat : lvls.length + (levels ops).length ≤ s.cfg.sat) :
    InBurst (flagAfter f ops) (lvls ++ levels ops) (afterAll ops s) := by
  induction ops generalizing f lvls s with
  | nil => simpa [levels, flagAfter] using h
  | cons i is ih =>
    obtain ⟨hi, his⟩ := not_or.mp (mt List.mem_cons.mpr hreset)
    rw [← List.singleton_append] at hspaced hsat ⊢
    rw [spaced_append, Bool.and_eq_true] at hspaced
    rw [levels_append, List.length_append] at hsat
    have hfirst := h.after hspaced.1 (Ne.symm hi) (by omega)
    rw [flagAfter_append, levels_append, ← List.append_assoc, afterAll_append]
    exact ih hfirst hspaced.2 his (by simp only [afterAll_cons, afterAll_nil, after_cfg, List.length_append]; omega)

/-! ### Operations that make one burst -/

/-- The operations begin with an EDGE, hold no RESET, and keep an EDGE between any two TICKs (R128, R141). -/
structure Burst (ops : List Instr) : Prop where
  first : ∃ lvl rest, ops = Instr.edge lvl :: rest
  spaced : spaced true ops = true
  noReset : Instr.reset ∉ ops

theorem burst_of_body {body : List Instr} (h : TransmissionBody body) : Burst body :=
  ⟨h.firstEdge, body_spaced h, h.noReset⟩

theorem Burst.append {xs ys : List Instr} (h : Burst xs) (hspaced : Machine.spaced (flagAfter true xs) ys = true)
    (hreset : Instr.reset ∉ ys) : Burst (xs ++ ys) := by
  obtain ⟨lvl, rest, hfirst⟩ := h.first
  exact ⟨⟨lvl, rest ++ ys, by rw [hfirst, List.cons_append]⟩, by rw [spaced_append, h.spaced, hspaced, Bool.and_self],
    by simp [h.noReset, hreset]⟩

/-- What stands before a TICK of a burst is a burst in which an EDGE has come since the last TICK. -/
theorem Burst.before_tick {pre post : List Instr} (h : Burst (pre ++ Instr.tick :: post)) :
    Burst pre ∧ flagAfter true pre = true := by
  obtain ⟨lvl, rest, hfirst⟩ := h.first
  have hspaced := h.spaced
  rw [spaced_append, Bool.and_eq_true] at hspaced
  have htick : flagAfter true pre = true := (Bool.and_eq_true _ _ ▸ hspaced.2).1
  cases pre with
  | nil => cases hfirst
  | cons i is =>
    obtain rfl : i = .edge lvl := (List.cons.inj hfirst).1
    exact ⟨⟨⟨lvl, is, rfl⟩, hspaced.1, fun hmem => h.noReset (List.mem_append_left _ hmem)⟩, htick⟩

/-- From rest such operations put the framer inside their burst. -/
theorem Burst.inBurst {ops : List Instr} {s : State} (h : Burst ops) (hrest : AtRest s)
    (hsat : (levels ops).length ≤ s.cfg.sat) : InBurst (flagAfter true ops) (levels ops) (afterAll ops s) := by
  have hspaced := h.spaced
  have hreset := h.noReset
  obtain ⟨lvl, rest, rfl⟩ := h.first
  exact (InBurst.start hrest lvl).afterAll (ops := rest) hspaced (fun hmem => hreset (List.mem_cons_of_mem _ hmem))
    (by simpa [levels, Nat.add_comm] using hsat)

/-- R87 (b): every TICK of a burst is in progress. -/
theorem Burst.tick_inProgress {pre post : List Instr} {s : State} (h : Burst (pre ++ Instr.tick :: post)) (hrest : AtRest s)
    (hsat : (levels (pre ++ Instr.tick :: post)).length ≤ s.cfg.sat) :
    (Machine.afterAll pre s).bitsRead ≠ 0 ∧ (Machine.afterAll pre s).bitsRead ≠ (Machine.afterAll pre s).lastBitsRead := by
  obtain ⟨hpre, hflag⟩ := h.before_tick
  rw [levels_append, List.length_append] at hsat
  have hin := hpre.inBurst hrest (by omega)
  rw [hflag] at hin
  exact hin.tick_inProgress (by rw [afterAll_cfg]; omega)

/-- R78: under GAP no TICK of a burst publishes. -/
theorem Burst.noPublication {ops : List Instr} {s : State} (h : Burst ops) (hrest : AtRest s)
    (hgap : s.cfg.publishAt = .gap) (hsat : (levels ops).length ≤ s.cfg.sat) : NoPublication ops s := by
  rintro pre post rfl hpub
  obtain ⟨-, hmoved⟩ := h.tick_inProgress hrest hsat
  obtain ⟨hbits, hlast⟩ := (publishesAt_iff_of_gap (by rwa [afterAll_cfg])).mp hpub
  exact hmoved (hbits.trans hlast.symm)

/-! ### The latch in a run without a publication -/

theorem afterAll_pkt_of_noPublication {ops : List Instr} {s : State} (hno : NoPublication ops s)
    (hreset : Instr.reset ∉ ops) : (afterAll ops s).pkt = s.pkt := by
  induction ops generalizing s with
  | nil => rfl
  | cons i is ih =>
    obtain ⟨hi, his⟩ := not_or.mp (mt List.mem_cons.mpr hreset)
    rw [afterAll_cons, ih hno.tail his]
    by_contra hwrites
    obtain ⟨htick, hpub, -⟩ | rfl := after_writes_pkt hwrites
    · exact hno.head htick hpub
    · exact hi rfl

theorem ready_of_afterAll_of_noPublication {ops : List Instr} {s : State} (hno : NoPublication ops s)
    (h : (afterAll ops s).ready = true) : s.ready = true := by
  by_contra hclear
  exact nomatch (afterAll_ready_of_noPublication (Bool.eq_false_iff.mpr hclear) hno).symm.trans h

/-! ### The end of a burst -/

/-- R80: the TICK that finds no EDGE since the last one ends the burst, and publishes it if it has 24 bits (R78). -/
theorem InBurst.gap {lvls : List Bool} {s : State} (h : InBurst false lvls s) (hsat : lvls.length ≤ s.cfg.sat) :
    AtRest (Machine.frameTick s) ∧ (Machine.frameTick s).phase = .gapDetected ∧
      (Machine.frameTick s).pkt = (if lvls.length = 24 then packetOf s.cfg.invert lvls else s.pkt) ∧
      (Machine.frameTick s).ready = (if lvls.length = 24 then true else s.ready) := by
  obtain ⟨hbits, hsame, hcount⟩ := h.tick_gap hsat
  refine ⟨atRest_frameTick_of_gap hbits hsame, ?_⟩
  rw [frameTick_gap hbits hsame, ← h.holds.buffer_eq, hcount]
  exact ⟨rfl, rfl, rfl⟩

/-- A burst up to and with the TICK that ends it, under GAP (R141, R142). -/
theorem Burst.framed {ops : List Instr} {s : State} (h : Burst ops) (hflag : flagAfter true ops = false)
    (hrest : AtRest s) (hgap : s.cfg.publishAt = .gap) (hsat : (levels ops).length ≤ s.cfg.sat) :
    AtRest (Machine.afterAll (ops ++ [.tick]) s) ∧
      (Machine.afterAll (ops ++ [.tick]) s).pkt =
        (if (levels ops).length = 24 then packetOf s.cfg.invert (levels ops) else s.pkt) ∧
      (Machine.afterAll (ops ++ [.tick]) s).ready =
        (if (levels ops).length = 24 then true else (Machine.afterAll ops s).ready) := by
  have hin := h.inBurst hrest hsat
  rw [hflag] at hin
  obtain ⟨hend, -, hpkt, hready⟩ := hin.gap (by rwa [afterAll_cfg])
  rw [afterAll_pkt_of_noPublication (h.noPublication hrest hgap hsat) h.noReset, afterAll_cfg] at hpkt
  rw [afterAll_append]
  exact ⟨hend, hpkt, hready⟩

/-- R133: a burst that has not 24 bits leaves the latch alone. -/
theorem Burst.dropped {ops : List Instr} {s : State} (h : Burst ops) (hflag : flagAfter true ops = false)
    (hrest : AtRest s) (hgap : s.cfg.publishAt = .gap) (hsat : (levels ops).length ≤ s.cfg.sat)
    (h24 : (levels ops).length ≠ 24) :
    AtRest (Machine.afterAll (ops ++ [.tick]) s) ∧ (Machine.afterAll (ops ++ [.tick]) s).pkt = s.pkt ∧
      ((Machine.afterAll (ops ++ [.tick]) s).ready = true → s.ready = true) := by
  obtain ⟨hend, hpkt, hready⟩ := h.framed hflag hrest hgap hsat
  rw [if_neg h24] at hpkt hready
  rw [hready]
  exact ⟨hend, hpkt, ready_of_afterAll_of_noPublication (h.noPublication hrest hgap hsat)⟩

/-! ### Transmissions -/

/-- A body with its first TICK after the last EDGE, and TAKEs before and after that TICK, is a burst with the body's levels. -/
theorem burst_of_closed_body {body takes₁ takes₂ : List Instr} (h : TransmissionBody body) (h₁ : ∀ i ∈ takes₁, i = Instr.take)
    (h₂ : ∀ i ∈ takes₂, i = Instr.take) :
    Burst (body ++ (takes₁ ++ Instr.tick :: takes₂)) ∧ flagAfter true (body ++ (takes₁ ++ Instr.tick :: takes₂)) = false ∧
      levels (body ++ (takes₁ ++ Instr.tick :: takes₂)) = levels body := by
  obtain ⟨hspaced₁, hflag₁, hlevels₁⟩ := spaced_takes true h₁
  obtain ⟨hspaced₂, hflag₂, hlevels₂⟩ := spaced_takes false h₂
  have hreset₁ : Instr.reset ∉ takes₁ := fun hmem => nomatch h₁ _ hmem
  have hreset₂ : Instr.reset ∉ takes₂ := fun hmem => nomatch h₂ _ hmem
  refine ⟨(burst_of_body h).append ?_ (by simp [hreset₁, hreset₂]), ?_, ?_⟩
  · rw [body_flag h, spaced_append, hspaced₁, hflag₁, spaced, hspaced₂]
    rfl
  · rw [flagAfter_append, body_flag h, flagAfter_append, hflag₁, flagAfter, hflag₂]
  · rw [levels_append, levels_append, hlevels₁, levels, hlevels₂, List.append_nil, List.append_nil]

end Sys2Proof.Machine
end

section
/-!
PROOF. The framing theorem and the hazards (R65, R133, R141, R142, R144), each a burst or two with the TICKs that end them.
-/

namespace Sys2Proof.Machine

open Sys2Proof.Safety

/-! ### One transmission under the envelope -/

/-- Settles O41: up to the first TICK after the body the operations are one burst, and the second TICK ends it. -/
theorem framingTheorem : Obligations.FramingTheorem := by
  intro s body takes₁ takes₂ hgap hrest hbody hsat h₁ h₂
  constructor
  · intro pre post hsplit
    obtain ⟨hburst, -, hlevels⟩ := burst_of_closed_body (takes₂ := []) hbody h₁ (by simp)
    rw [← hlevels, hsplit] at hsat
    rw [hsplit] at hburst
    obtain ⟨hbits, hmoved⟩ := hburst.tick_inProgress hrest hsat
    have hno := hburst.noPublication hrest hgap hsat pre post rfl
    have hlatch := frameTick_latch (afterAll pre s)
    rw [if_neg hno] at hlatch
    refine ⟨_, _, runOps_eq_afterAll pre s, exec_tick _, hbits, hmoved, ?_, hlatch⟩
    rw [frameTick_inProgress hbits hmoved]
  · obtain ⟨hburst, hflag, hlevels⟩ := burst_of_closed_body hbody h₁ h₂
    rw [← hlevels] at hsat
    have hin := hburst.inBurst hrest hsat
    rw [hflag, hlevels] at hin
    obtain ⟨hend, hphase, hpkt, hready⟩ := hin.gap (by rw [afterAll_cfg, ← hlevels]; exact hsat)
    refine ⟨_, _, runOps_eq_afterAll _ s, exec_tick _,
      afterAll_pkt_of_noPublication (hburst.noPublication hrest hgap hsat) hburst.noReset, hphase, hend, ?_⟩
    rw [hpkt, hready]
    split
    case isTrue => exact ⟨rfl, fun k hk => by rw [afterAll_cfg, getLsbD_packetOf _ _ k hk]⟩
    case isFalse => exact ⟨rfl, rfl⟩

/-! ### Merged and split transmissions (R133) -/

theorem levels_of_quiet {ops : List Instr} (h : Quiet ops) : levels ops = [] := by
  induction ops with
  | nil => rfl
  | cons i is ih =>
    have his := ih fun j hj => h j (List.mem_cons_of_mem i hj)
    obtain rfl | rfl := h i List.mem_cons_self
    · exact his
    · exact his

theorem reset_not_mem_of_quiet {ops : List Instr} (h : Quiet ops) : Instr.reset ∉ ops := by
  intro hmem
  obtain heq | heq := h _ hmem
  · cases heq
  · cases heq

/-- One TICK after an EDGE is not yet a gap. -/
theorem spaced_of_quiet {ops : List Instr} (h : Quiet ops) (hticks : tickCount ops ≤ 1) : spaced true ops = true := by
  induction ops with
  | nil => rfl
  | cons i is ih =>
    have his : Quiet is := fun j hj => h j (List.mem_cons_of_mem i hj)
    obtain rfl | rfl := h i List.mem_cons_self
    · have hnone : Instr.tick ∉ is := List.count_eq_zero.mp (by simpa [tickCount] using hticks)
      exact (spaced_takes false fun j hj => (his j hj).resolve_left fun heq => hnone (heq ▸ hj)).1
    · exact ih his (by simpa [tickCount] using hticks)

/-- An EDGE may come whatever the flag. -/
theorem body_spaced_any {body : List Instr} (h : TransmissionBody body) (f : Bool) : spaced f body = true := by
  have hspaced := body_spaced h
  obtain ⟨lvl, rest, rfl⟩ := h.firstEdge
  exact hspaced

/-- Two bodies with at most one TICK between them, and the TICK after them, are one burst. -/
theorem burst_of_merged_bodies {first between second : List Instr} (hfirst : TransmissionBody first)
    (hsecond : TransmissionBody second) (hquiet : Quiet between) (hticks : tickCount between ≤ 1) :
    Burst (first ++ (between ++ (second ++ [.tick]))) ∧
      flagAfter true (first ++ (between ++ (second ++ [.tick]))) = false ∧
      levels (first ++ (between ++ (second ++ [.tick]))) = levels (first ++ second) := by
  have hreset := reset_not_mem_of_quiet hquiet
  refine ⟨(burst_of_body hfirst).append ?_ (by simp [hreset, hsecond.noReset]), ?_, ?_⟩
  · rw [body_flag hfirst, spaced_append, spaced_of_quiet hquiet hticks, spaced_append, body_spaced_any hsecond,
      body_flag hsecond]
    rfl
  · rw [flagAfter_append, flagAfter_append, flagAfter_append, body_flag hsecond]
    rfl
  · simp [levels_append, levels_of_quiet hquiet, levels]

/-- Settles O45: the merged burst has not 24 bits. -/
theorem mergedTransmissionsAreDropped : Obligations.MergedTransmissionsAreDropped := by
  intro s first between second hgap hrest hfirst hsecond hquiet hticks hsat h24
  obtain ⟨hburst, hflag, hlevels⟩ := burst_of_merged_bodies hfirst hsecond hquiet hticks
  rw [← hlevels] at hsat h24
  refine ⟨_, ?_, hburst.dropped hflag hrest hgap hsat h24⟩
  rw [runOps_eq_afterAll]
  simp [gapOps]

/-- R133: a body that has not 24 bits, with two TICKs after it, is dropped. -/
theorem body_gap_dropped {s : State} {body : List Instr} (hgap : s.cfg.publishAt = .gap) (hrest : AtRest s)
    (hbody : TransmissionBody body) (hsat : (levels body).length ≤ s.cfg.sat) (h24 : (levels body).length ≠ 24) :
    AtRest (afterAll (body ++ gapOps) s) ∧ (afterAll (body ++ gapOps) s).pkt = s.pkt ∧
      ((afterAll (body ++ gapOps) s).ready = true → s.ready = true) := by
  obtain ⟨hburst, hflag, hlevels⟩ := burst_of_closed_body (takes₁ := []) (takes₂ := []) hbody (by simp) (by simp)
  rw [← hlevels] at hsat h24
  have hdropped := hburst.dropped hflag hrest hgap hsat h24
  rwa [List.append_assoc] at hdropped

/-- Settles O46: each part is a transmission of its own. -/
theorem falseGapSplitsTransmission : Obligations.FalseGapSplitsTransmission := by
  intro s first second hgap hrest hfirst hsecond hsat₁ hsat₂ h24₁ h24₂
  obtain ⟨hrest₁, hpkt₁, hready₁⟩ := body_gap_dropped hgap hrest hfirst hsat₁ h24₁
  obtain ⟨hrest₂, hpkt₂, hready₂⟩ :=
    body_gap_dropped (by rwa [afterAll_cfg]) hrest₁ hsecond (by rwa [afterAll_cfg]) h24₂
  refine ⟨_, ?_, hrest₂, hpkt₂.trans hpkt₁, hready₁ ∘ hready₂⟩
  rw [runOps_eq_afterAll, ← afterAll_append, List.append_assoc]

/-! ### SEND and GAP (R65) -/

theorem levels_sendOps (invert : Bool) (v : RawPacket) :
    levels (sendOps invert v) = (List.range 24).map fun k => xor (v.getLsbD k) invert := rfl

/-- The polarity of the lines cancels the polarity of the sampler. -/
theorem packetOf_levels_sendOps (invert : Bool) (v : RawPacket) : packetOf invert (levels (sendOps invert v)) = v := by
  apply BitVec.eq_of_getLsbD_eq
  intro k hk
  rw [getLsbD_packetOf _ _ k hk, levels_sendOps, List.map_map]
  simp [List.getD_eq_getElem?_getD, hk]

theorem burst_sendOps (invert : Bool) (v : RawPacket) :
    Burst (sendOps invert v) ∧ flagAfter true (sendOps invert v) = false ∧ Instr.take ∉ sendOps invert v :=
  ⟨⟨⟨_, _, rfl⟩, rfl, by simp [sendOps, sendOctet]⟩, rfl, by simp [sendOps, sendOctet]⟩

/-- Settles O27: SEND ends with its first TICK after the last EDGE, GAP's first TICK publishes, its second is idle, and the TAKE
finds the packet. -/
theorem sendThenGapDelivers : Obligations.SendThenGapDelivers := by
  intro s v hgap hsat hrest
  obtain ⟨hburst, hflag, htake⟩ := burst_sendOps s.cfg.invert v
  have h24 : (levels (sendOps s.cfg.invert v)).length = 24 := rfl
  obtain ⟨hend, hpkt, hready⟩ := hburst.framed hflag hrest hgap (h24.trans_le hsat)
  have htakes : (afterAll (sendOps s.cfg.invert v ++ [.tick]) s).takes = s.takes :=
    afterAll_takes_of_no_take (by simpa using htake) s
  have hcfg : (afterAll (sendOps s.cfg.invert v ++ [.tick]) s).cfg = s.cfg := afterAll_cfg _ s
  rw [if_pos h24, packetOf_levels_sendOps] at hpkt
  rw [if_pos h24] at hready
  generalize hu : afterAll (sendOps s.cfg.invert v ++ [.tick]) s = u at hend hpkt hready htakes hcfg
  have hidle : frameTick u = { u with dbg := false, phase := .idle } := frameTick_idle hend.1.2.1
  refine ⟨takeLatch (frameTick u), ?_, ?_, takeLatch_ready _, ?_⟩
  · have hsplit : sendOps s.cfg.invert v ++ gapOps ++ [.take] = (sendOps s.cfg.invert v ++ [.tick]) ++ [.tick, .take] := by
      simp [gapOps]
    rw [runOps_eq_afterAll, hsplit, afterAll_append, hu]
    rfl
  · exact ((AgreeButConsumer.refl _).take).atRest (atRest_frameTick hend)
  · rw [takeLatch_takes, takeResult_of_ready (by rw [hidle]; exact hready), hidle]
    dsimp only
    rw [htakes, hpkt, hcfg]

/-! ### PUBLISH_AT = COUNT (R79, R144) -/

/-- R79: right after the 24th EDGE of a burst a TICK publishes those 24 bits. -/
theorem InBurst.publishes_of_count {lvls : List Bool} {s : State} {f : Bool} (h : InBurst f lvls s)
    (hcount : s.cfg.publishAt = .count) (hsat : 24 ≤ s.cfg.sat) (h24 : lvls.length = 24) :
    (Machine.frameTick s).ready = true ∧ (Machine.frameTick s).pkt = packetOf s.cfg.invert lvls := by
  have hbits : s.bitsRead = 24 := by rw [h.holds.count]; omega
  have hpub : PublishesAt s := (publishesAt_iff_of_count hcount).mpr hbits
  rw [frameTick_ready, frameTick_pkt, if_pos hpub, if_pos hpub, h.holds.buffer_eq]
  exact ⟨rfl, rfl⟩

/-- A TICK that publishes and the TAKE after it return the packet, under COUNT and inside the burst or at its end. -/
theorem InBurst.tick_take_of_count {lvls : List Bool} {s : State} {f : Bool} (h : InBurst f lvls s)
    (hcount : s.cfg.publishAt = .count) (hsat : 24 ≤ s.cfg.sat) (h24 : lvls.length = 24) :
    (takeLatch (Machine.frameTick s)).takes =
      s.takes ++ [some (packetOf s.cfg.invert lvls, decodePacket s.cfg (packetOf s.cfg.invert lvls))] := by
  obtain ⟨hready, hpkt⟩ := h.publishes_of_count hcount hsat h24
  rw [takeLatch_takes, takeResult_of_ready hready, hpkt, frameTick_takes, frameTick_cfg]

/-- Settles O44: the first TICK after the burst is in progress and the second ends it, and each sees 24 bits; inside a longer
burst the TICK after the 24th EDGE sees them too. -/
theorem countPolicyPublishesTwice : Obligations.CountPolicyPublishesTwice := by
  constructor
  · intro s body hcount hrest hsat hbody h24
    have hin := (burst_of_body hbody).inBurst hrest (h24.trans_le hsat)
    have hcfg : (afterAll body s).cfg = s.cfg := afterAll_cfg body s
    rw [body_flag hbody] at hin
    generalize hu : afterAll body s = u at hin hcfg
    have hin' : InBurst false (levels body) (takeLatch (frameTick u)) := by
      have htick := hin.frameTick (by rw [h24, hcfg]; exact hsat)
      simpa [levels, flagAfter] using htick.after (i := .take) rfl (by simp) (by simp [levels, h24, hcfg, hsat])
    have hcfg' : (takeLatch (frameTick u)).cfg = s.cfg := by rw [takeLatch_cfg, frameTick_cfg, hcfg]
    obtain ⟨hend, -⟩ := hin'.gap (by rw [h24, hcfg']; exact hsat)
    have htakes := hin.tick_take_of_count (by rwa [hcfg]) (by rwa [hcfg]) h24
    have htakes' := hin'.tick_take_of_count (by rwa [hcfg']) (by rwa [hcfg']) h24
    refine ⟨u, takeLatch (frameTick (takeLatch (frameTick u))), by rw [runOps_eq_afterAll, hu], rfl,
      ((AgreeButConsumer.refl _).take).atRest hend, ?_⟩
    rw [htakes', htakes, hcfg, hcfg', List.append_assoc]
    rfl
  · intro s pre post hcount hrest hsat hbody h24
    obtain ⟨hburst, -⟩ := (burst_of_body hbody).before_tick
    have hin := hburst.inBurst hrest (h24.trans_le hsat)
    obtain ⟨hready, hpkt⟩ := hin.publishes_of_count (by rwa [afterAll_cfg]) (by rwa [afterAll_cfg]) h24
    rw [afterAll_cfg] at hpkt
    exact ⟨frameTick (afterAll pre s), by rw [runOps_eq_afterAll, afterAll_append]; rfl, hready, hpkt⟩

end Sys2Proof.Machine
end

section
/-!
PROOF. Delivery over many transmissions (R48, R90, R141, R142): each one adds its packet, or nothing, to what the consumer got,
and leaves the block as it found it: at rest with the latch empty.
-/

namespace Sys2Proof.Machine

open Sys2Proof.Safety

/-! ### What the consumer got -/

theorem delivered_append (rs rs' : List TakeResult) : delivered (rs ++ rs') = delivered rs ++ delivered rs' :=
  List.filterMap_append

theorem delivered_replicate_none (k : Nat) : delivered (List.replicate k none) = [] := by
  simp [delivered]

theorem delivered_singleton (r : TakeResult) : delivered [r] = r.toList := by
  cases r <;> rfl

/-- R91: with the latch empty and no publication the consumer gets nothing. -/
theorem delivered_of_noPublication {ops : List Instr} {s : State} (hclear : s.ready = false) (hno : NoPublication ops s) :
    delivered (afterAll ops s).takes = delivered s.takes := by
  rw [afterAll_takes_of_noPublication hclear hno, delivered_append, delivered_replicate_none, List.append_nil]

/-! ### Quiet runs -/

/-- R77: at rest no TICK publishes. -/
theorem noPublication_of_quiet {ops : List Instr} {s : State} (hquiet : Quiet ops) (hrest : AtRest s) :
    NoPublication ops s := by
  rintro pre post rfl ⟨h24, -⟩
  have hpre : Quiet pre := fun i hi => hquiet i (List.mem_append_left _ hi)
  have hbits := (atRest_afterAll_quiet hpre hrest).1.2.1
  omega

/-- R90: the first TAKE of a quiet run gets what is in the latch, and the others get nothing. -/
theorem quiet_delivers {ops : List Instr} {s : State} (hquiet : Quiet ops) (hrest : AtRest s) (htake : Instr.take ∈ ops) :
    (afterAll ops s).ready = false ∧
      delivered (afterAll ops s).takes = delivered s.takes ++ (takeResult s).toList := by
  induction ops generalizing s with
  | nil => cases htake
  | cons i is ih =>
    have his : Quiet is := fun j hj => hquiet j (List.mem_cons_of_mem i hj)
    obtain rfl | rfl := hquiet i List.mem_cons_self
    · have hidle : frameTick s = { s with dbg := false, phase := .idle } := frameTick_idle hrest.1.2.1
      have hlater := ih his (atRest_frameTick hrest) (by simpa using htake)
      rw [hidle] at hlater
      rw [afterAll_cons, after_tick, hidle]
      exact hlater
    · have hrest' : AtRest (takeLatch s) := ((AgreeButConsumer.refl s).take).atRest hrest
      have hno := noPublication_of_quiet his hrest'
      rw [afterAll_cons, after_take]
      refine ⟨afterAll_ready_of_noPublication (takeLatch_ready s) hno, ?_⟩
      rw [delivered_of_noPublication (takeLatch_ready s) hno, takeLatch_takes, delivered_append,
        delivered_singleton]

/-! ### One transmission -/

/-- The packet of a transmission with its measurement, if it publishes one. -/
def publishedResult (c : Config) (x : Transmission) : TakeResult :=
  (x.published c.invert).map fun p => (p, decodePacket c p)

/-- A transmission is one burst, the TICK that ends it, and a quiet run. -/
theorem transmission_ops_eq (x : Transmission) :
    x.ops = (x.body ++ (x.gapBefore ++ Instr.tick :: x.gapBetween) ++ [.tick]) ++ x.gapAfter := by
  simp [Transmission.ops]

/-- At the TICK that ends it the transmission's packet is in the latch, and the consumer has got nothing yet. -/
theorem transmission_publishes {s : State} {x : Transmission} (hgap : s.cfg.publishAt = .gap) (hrest : AtRest s)
    (hclear : s.ready = false) (hx : x.Framed s.cfg.sat) :
    ∃ u : State, u = afterAll (x.body ++ (x.gapBefore ++ Instr.tick :: x.gapBetween) ++ [.tick]) s ∧ AtRest u ∧
      takeResult u = publishedResult s.cfg x ∧ delivered u.takes = delivered s.takes := by
  obtain ⟨hburst, hflag, hlevels⟩ := burst_of_closed_body hx.body hx.before hx.between
  have hsat := hx.bounded
  rw [← hlevels] at hsat
  have hno := hburst.noPublication hrest hgap hsat
  obtain ⟨hend, hpkt, hready⟩ := hburst.framed hflag hrest hgap hsat
  rw [hlevels] at hpkt hready
  rw [afterAll_ready_of_noPublication hclear hno] at hready
  refine ⟨_, rfl, hend, ?_, ?_⟩
  · rw [takeResult, hready, hpkt, afterAll_cfg, publishedResult, Transmission.published]
    split <;> rfl
  · rw [afterAll_append, afterAll_cons, afterAll_nil, after_tick, frameTick_takes, delivered_of_noPublication hclear hno]

theorem transmission_delivers {s : State} {x : Transmission} (hgap : s.cfg.publishAt = .gap) (hrest : AtRest s)
    (hclear : s.ready = false) (hx : x.Framed s.cfg.sat) (htake : Instr.take ∈ x.gapAfter) :
    AtRest (afterAll x.ops s) ∧ (afterAll x.ops s).ready = false ∧
      delivered (afterAll x.ops s).takes = delivered s.takes ++ (publishedResult s.cfg x).toList := by
  obtain ⟨u, hu, hurest, hresult, hnothing⟩ := transmission_publishes hgap hrest hclear hx
  obtain ⟨hready, htakes⟩ := quiet_delivers hx.after hurest htake
  rw [transmission_ops_eq, afterAll_append, ← hu]
  exact ⟨atRest_afterAll_quiet hx.after hurest, hready, by rw [htakes, hnothing, hresult]⟩

/-! ### Any number of transmissions -/

theorem transmissions_deliver {s : State} {ts : List Transmission} (hgap : s.cfg.publishAt = .gap) (hrest : AtRest s)
    (hclear : s.ready = false) (hts : ∀ x ∈ ts, x.Framed s.cfg.sat ∧ Instr.take ∈ x.gapAfter) :
    AtRest (afterAll (ts.flatMap Transmission.ops) s) ∧ (afterAll (ts.flatMap Transmission.ops) s).ready = false ∧
      delivered (afterAll (ts.flatMap Transmission.ops) s).takes =
        delivered s.takes ++ ts.filterMap (publishedResult s.cfg) := by
  induction ts generalizing s with
  | nil => exact ⟨hrest, hclear, by simp⟩
  | cons x xs ih =>
    obtain ⟨⟨hx, htake⟩, hxs⟩ := List.forall_mem_cons.mp hts
    obtain ⟨hrest', hclear', htakes⟩ := transmission_delivers hgap hrest hclear hx htake
    have hcfg : (afterAll x.ops s).cfg = s.cfg := afterAll_cfg x.ops s
    have hall := ih (by rwa [hcfg]) hrest' hclear' (by rwa [hcfg])
    rw [hcfg, htakes, List.append_assoc] at hall
    rw [List.flatMap_cons, afterAll_append, List.filterMap_cons]
    cases hpub : publishedResult s.cfg x with
    | none => simpa [hpub] using hall
    | some r => simpa [hpub] using hall

/-- Settles O42: the leading quiet run delivers nothing, and each transmission its own packet. -/
theorem everyPacketIsDeliveredOnceInOrder : Obligations.EveryPacketIsDeliveredOnceInOrder := by
  intro s lead ts hgap hrest hclear hlead hts
  have hno := noPublication_of_quiet hlead hrest
  have hcfg : (afterAll lead s).cfg = s.cfg := afterAll_cfg lead s
  obtain ⟨hend, hready, htakes⟩ := transmissions_deliver (s := afterAll lead s) (by rwa [hcfg])
    (atRest_afterAll_quiet hlead hrest) (afterAll_ready_of_noPublication hclear hno) (by rwa [hcfg])
  refine ⟨_, by rw [runOps_eq_afterAll, afterAll_append], hend, hready, ?_⟩
  rw [htakes, delivered_of_noPublication hclear hno, hcfg, List.map_filterMap]
  rfl

end Sys2Proof.Machine
end

section
/-!
PROOF. What a raised `ready` vouches for (R38): along any run the accumulator holds the EDGEs since it was last empty, so the
publication that raised `ready` copied the bits of exactly 24 of them.
-/

namespace Sys2Proof.Machine

open Sys2Proof.Safety

/-- The accumulator holds the EDGEs of the run's last stretch, which began with it empty and has no RESET. -/
def HeldSinceEmpty (s : State) (ops : List Instr) : Prop :=
  ∃ pre burst : List Instr, ops = pre ++ burst ∧ Instr.reset ∉ burst ∧ EmptyAccumulator (afterAll pre s) ∧
    Holds (afterAll ops s) (levels burst)

/-- The packet in the latch is what a publication of the run copied: 24 EDGEs since the accumulator was empty. -/
def LatchedFromBurst (s : State) (ops : List Instr) : Prop :=
  ∃ (pre burst post : List Instr) (u v : State),
    ops = pre ++ (burst ++ Instr.tick :: post) ∧ Instr.reset ∉ burst ∧
      runOps pre s = .next u ∧ EmptyAccumulator u ∧ runOps burst u = .next v ∧ PublishesAt v ∧
      (levels burst).length = 24 ∧ v.buffer = packetOf s.cfg.invert (levels burst) ∧ (afterAll ops s).pkt = v.buffer

theorem afterAll_concat (ops : List Instr) (i : Instr) (s : State) :
    afterAll (ops ++ [i]) s = after i (afterAll ops s) := afterAll_append ops [i] s

/-! ### The accumulator -/

/-- A stretch begins where the accumulator is empty. -/
theorem heldSinceEmpty_of_empty {s : State} {ops : List Instr} (h : EmptyAccumulator (afterAll ops s)) :
    HeldSinceEmpty s ops :=
  ⟨ops, [], (List.append_nil ops).symm, List.not_mem_nil, h, holds_nil h⟩

/-- A stretch goes on with an operation that leaves the accumulator holding its EDGEs. -/
theorem HeldSinceEmpty.extend {s : State} {ops : List Instr} {i : Instr} (h : HeldSinceEmpty s ops) (hreset : i ≠ .reset)
    (hholds : ∀ lvls, Holds (afterAll ops s) lvls → Holds (after i (afterAll ops s)) (lvls ++ levels [i])) :
    HeldSinceEmpty s (ops ++ [i]) := by
  obtain ⟨pre, burst, rfl, hburst, hempty, hheld⟩ := h
  refine ⟨pre, burst ++ [i], List.append_assoc .., by simp [hburst, Ne.symm hreset], hempty, ?_⟩
  rw [afterAll_concat, levels_append]
  exact hholds _ hheld

/-- A TICK that is no gap leaves the accumulator. -/
theorem Holds.frameTick {s : State} {lvls : List Bool} (h : Holds s lvls)
    (hgap : ¬ (s.bitsRead ≠ 0 ∧ s.bitsRead = s.lastBitsRead)) : Holds (frameTick s) lvls := by
  by_cases hbits : s.bitsRead = 0
  case pos =>
    rw [frameTick_idle hbits]
    exact h.congr rfl rfl rfl rfl
  case neg =>
    rw [frameTick_inProgress hbits fun hsame => hgap ⟨hbits, hsame⟩]
    exact h.congr rfl rfl rfl rfl

theorem HeldSinceEmpty.concat {s : State} {ops : List Instr} (h : HeldSinceEmpty s ops) (i : Instr) :
    HeldSinceEmpty s (ops ++ [i]) := by
  cases i with
  | edge lvl => exact h.extend (by simp) fun _ hheld => hheld.recordBit lvl
  | tick =>
    by_cases hgap : (afterAll ops s).bitsRead ≠ 0 ∧ (afterAll ops s).bitsRead = (afterAll ops s).lastBitsRead
    case pos =>
      apply heldSinceEmpty_of_empty
      rw [afterAll_concat]
      exact (atRest_frameTick_of_gap hgap.1 hgap.2).1
    case neg => exact h.extend (by simp) fun _ hheld => by simpa [levels] using hheld.frameTick hgap
  | take =>
    refine h.extend (by simp) fun _ hheld => ?_
    simpa [levels] using hheld.congr (takeLatch_buffer _) (takeLatch_bitsRead _) (takeLatch_nextBitMask _) (takeLatch_cfg _)
  | reset =>
    apply heldSinceEmpty_of_empty
    rw [afterAll_concat]
    exact (atRest_resetBlock _).1

theorem heldSinceEmpty {s : State} (hempty : EmptyAccumulator s) (ops : List Instr) : HeldSinceEmpty s ops := by
  induction ops using List.reverseRecOn with
  | nil => exact heldSinceEmpty_of_empty hempty
  | append_singleton ops i ih => exact ih.concat i

/-! ### The latch -/

/-- A TICK that publishes copies the bits of the stretch, which are 24: with SAT above 24 the count is the number of EDGEs. -/
theorem latchedFromBurst_of_publication {s : State} {ops : List Instr} (hsat : 24 < s.cfg.sat) (h : HeldSinceEmpty s ops)
    (hpub : PublishesAt (afterAll ops s)) : LatchedFromBurst s (ops ++ [.tick]) := by
  obtain ⟨pre, burst, rfl, hburst, hempty, hheld⟩ := h
  have h24 : (levels burst).length = 24 := by
    have hcount := hheld.count
    rw [hpub.1, afterAll_cfg] at hcount
    omega
  have hbuffer := hheld.buffer_eq
  rw [afterAll_cfg] at hbuffer
  rw [afterAll_append] at hpub hbuffer
  refine ⟨pre, burst, [], afterAll pre s, afterAll burst (afterAll pre s), by simp, hburst, runOps_eq_afterAll pre s, hempty,
    runOps_eq_afterAll burst _, hpub, h24, hbuffer, ?_⟩
  rw [afterAll_concat, afterAll_append, after_tick, frameTick_pkt, if_pos hpub]

/-- An operation that keeps `pkt` keeps where it came from. -/
theorem LatchedFromBurst.extend {s : State} {ops : List Instr} {i : Instr} (h : LatchedFromBurst s ops)
    (hpkt : (after i (afterAll ops s)).pkt = (afterAll ops s).pkt) : LatchedFromBurst s (ops ++ [i]) := by
  obtain ⟨pre, burst, post, u, v, hsplit, hburst, hu, hempty, hv, hpub, h24, hbuffer, hlatch⟩ := h
  refine ⟨pre, burst, post ++ [i], u, v, by simp [hsplit], hburst, hu, hempty, hv, hpub, h24, hbuffer, ?_⟩
  rw [afterAll_concat, hpkt, hlatch]

theorem latchedFromBurst_of_ready {s : State} (hsat : 24 < s.cfg.sat) (hempty : EmptyAccumulator s)
    (hclear : s.ready = false) (ops : List Instr) (hready : (afterAll ops s).ready = true) : LatchedFromBurst s ops := by
  induction ops using List.reverseRecOn with
  | nil => exact nomatch hclear.symm.trans hready
  | append_singleton ops i ih =>
    rw [afterAll_concat] at hready
    by_cases hpub : i = .tick ∧ PublishesAt (afterAll ops s)
    case pos =>
      obtain ⟨rfl, hpub⟩ := hpub
      exact latchedFromBurst_of_publication hsat (heldSinceEmpty hempty ops) hpub
    case neg =>
      have hkept : (afterAll ops s).ready = true := by
        by_contra hnot
        exact hpub (after_sets_ready (Bool.eq_false_iff.mpr hnot) hready)
      refine (ih hkept).extend ?_
      by_contra hwrites
      obtain ⟨htick, hpublishes, -⟩ | rfl := after_writes_pkt hwrites
      · exact hpub ⟨htick, hpublishes⟩
      · simp at hready

/-- Settles O39: a raised `ready` is a packet latched from a burst, with its split written out. -/
theorem readyMeansTwentyFourSampledBits : Obligations.ReadyMeansTwentyFourSampledBits := by
  intro s t ops hsat hrest hclear hrun hready
  obtain rfl : afterAll ops s = t := by simpa only [runOps_eq_afterAll, Host.Outcome.next.injEq] using hrun
  exact latchedFromBurst_of_ready hsat hrest.1 hclear ops hready

end Sys2Proof.Machine
end

section
/-!
PROOF. The floating-point form (R98, G1): the exponent makes the scaled value a `prec`-bit number, and rounding it to the nearest
integer, ties to even, is rounding the value to the nearest number of that precision.
-/

namespace Sys2Proof.Machine

open Sys2Proof.Safety

/-! ### Rounding a fraction to an integer -/

/-- The integer part of the rounded fraction, and what the remainder said. -/
theorem roundNearestEven_cases (n d : Nat) :
    (roundNearestEven n d = n / d + 1 ∧ (d < 2 * (n % d) ∨ 2 * (n % d) = d ∧ n / d % 2 = 1)) ∨
      (roundNearestEven n d = n / d ∧ (2 * (n % d) < d ∨ 2 * (n % d) = d ∧ n / d % 2 = 0)) := by
  unfold roundNearestEven
  split
  case isTrue hup => exact .inl ⟨rfl, hup⟩
  case isFalse hdown => exact .inr ⟨rfl, by omega⟩

/-- The distance of the integer `k` from the fraction `n / d`, scaled by `d`. -/
def scaledDistance (n d k : Nat) : Int := |(k * d : Int) - n|

/-- The integers around the fraction are the remainder and its complement away; every other one is at least `d` away. -/
theorem scaledDistance_cases {n d : Nat} (hd : 0 < d) (k : Nat) :
    if k = n / d then scaledDistance n d k = (n % d : Nat)
    else if k = n / d + 1 then scaledDistance n d k = d - (n % d : Nat) else (d : Int) ≤ scaledDistance n d k := by
  have hn : ((n / d : Nat) : Int) * d + (n % d : Nat) = n := by exact_mod_cast Nat.div_add_mod' n d
  have hmod : n % d < d := Nat.mod_lt n hd
  rw [scaledDistance, abs_eq_max_neg]
  generalize n / d = a at *
  generalize n % d = r at *
  split_ifs with hfloor hceil
  · subst hfloor
    omega
  · subst hceil
    push_cast
    rw [add_mul, one_mul]
    omega
  · obtain hlow | hhigh : k + 1 ≤ a ∨ a + 2 ≤ k := by omega
    · have hfar : ((k : Int) + 1) * d ≤ a * d := by exact_mod_cast Nat.mul_le_mul_right d hlow
      rw [add_mul, one_mul] at hfar
      omega
    · have hfar : ((a : Int) + 2) * d ≤ k * d := by exact_mod_cast Nat.mul_le_mul_right d hhigh
      rw [add_mul] at hfar
      omega

/-- No integer is nearer, and of two that are equally near the even one is chosen. -/
theorem roundNearestEven_nearest {n d : Nat} (hd : 0 < d) (k : Nat) :
    scaledDistance n d (roundNearestEven n d) ≤ scaledDistance n d k ∧
      (scaledDistance n d (roundNearestEven n d) = scaledDistance n d k →
        k = roundNearestEven n d ∨ roundNearestEven n d % 2 = 0) := by
  have hmod : n % d < d := Nat.mod_lt n hd
  have hk := scaledDistance_cases (n := n) hd k
  have hm := scaledDistance_cases (n := n) hd (roundNearestEven n d)
  obtain ⟨heq, hnear⟩ | ⟨heq, hnear⟩ := roundNearestEven_cases n d
  · rw [heq, if_neg (by omega), if_pos rfl] at hm
    rw [heq]
    split_ifs at hk <;> omega
  · rw [heq, if_pos rfl] at hm
    rw [heq]
    split_ifs at hk <;> omega

/-- The rounded fraction stays between the bounds of the fraction. -/
theorem roundNearestEven_bounds {n d lo hi : Nat} (hd : 0 < d) (hlo : lo * d ≤ n) (hhi : n < hi * d) :
    lo ≤ roundNearestEven n d ∧ roundNearestEven n d ≤ hi := by
  have hfloor : lo ≤ n / d := (Nat.le_div_iff_mul_le hd).mpr hlo
  have hceil : n / d < hi := (Nat.div_lt_iff_lt_mul hd).mpr hhi
  obtain ⟨heq, -⟩ | ⟨heq, -⟩ := roundNearestEven_cases n d
  · omega
  · omega

/-! ### The scaled fraction -/

theorem scaledDen_pos {den : Nat} (h : 0 < den) (e : Int) : 0 < scaledDen den e :=
  Nat.mul_pos h (Nat.two_pow_pos _)

theorem scaled_div (num den : Nat) (e : Int) :
    (scaledNum num e : Rat) / scaledDen den e = (num : Rat) / den / 2 ^ e := by
  obtain ⟨k, rfl | rfl⟩ := e.eq_nat_or_neg
  · simp [scaledNum, scaledDen, div_div]
  · simp [scaledNum, scaledDen, div_mul_eq_mul_div]

/-- The scaled fraction against an integer. -/
theorem scaled_lt_iff {num den : Nat} (hden : 0 < den) (e : Int) (k : Nat) :
    scaledNum num e < k * scaledDen den e ↔ (num : Rat) / den / 2 ^ e < k := by
  rw [← scaled_div, div_lt_iff₀ (by exact_mod_cast scaledDen_pos hden e)]
  exact_mod_cast Iff.rfl

/-! ### The exponent -/

theorem log2_bounds {n : Nat} (h : 0 < n) :
    (2 : Rat) ^ (n.log2 : Int) ≤ n ∧ (n : Rat) < 2 ^ ((n.log2 : Int) + 1) := by
  constructor
  · exact_mod_cast Nat.log2_self_le h.ne'
  · exact_mod_cast Nat.lt_log2_self

/-- A positive fraction lies strictly within a factor two of the power of two its lengths give. -/
theorem div_log2_bounds {num den : Nat} (hnum : 0 < num) (hden : 0 < den) :
    (2 : Rat) ^ ((num.log2 : Int) - den.log2 - 1) < (num : Rat) / den ∧
      (num : Rat) / den < 2 ^ ((num.log2 : Int) - den.log2 + 1) := by
  obtain ⟨hnumlo, hnumhi⟩ := log2_bounds hnum
  obtain ⟨hdenlo, hdenhi⟩ := log2_bounds hden
  have hdenpos : (0 : Rat) < den := by exact_mod_cast hden
  constructor
  · calc (2 : Rat) ^ ((num.log2 : Int) - den.log2 - 1)
        = 2 ^ (num.log2 : Int) / 2 ^ ((den.log2 : Int) + 1) := by rw [sub_sub, zpow_sub₀ two_ne_zero]
      _ < num / den := div_lt_div₀' hnumlo hdenhi (by positivity) hdenpos
  · calc (num : Rat) / den
        < 2 ^ ((num.log2 : Int) + 1) / 2 ^ (den.log2 : Int) := div_lt_div₀ hnumhi hdenlo (by positivity) (by positivity)
      _ = 2 ^ ((num.log2 : Int) - den.log2 + 1) := by rw [← zpow_sub₀ two_ne_zero, sub_add_eq_add_sub]

/-- The scaled fraction against a power of two. -/
theorem scaled_lt_two_pow_iff {num den : Nat} (hden : 0 < den) (e : Int) (k : Nat) :
    scaledNum num e < 2 ^ k * scaledDen den e ↔ (num : Rat) / den < 2 ^ (k + e) := by
  rw [scaled_lt_iff hden, div_lt_iff₀ (by positivity), zpow_add₀ two_ne_zero, zpow_natCast, Nat.cast_pow, Nat.cast_ofNat]

/-- The exponent puts the fraction between the least and the greatest `prec`-bit significand. -/
theorem significandExponent_bounds {prec num den : Nat} (hprec : 1 ≤ prec) (hnum : 0 < num) (hden : 0 < den) :
    (2 : Rat) ^ (((prec - 1 : Nat) : Int) + significandExponent prec num den) ≤ (num : Rat) / den ∧
      (num : Rat) / den < 2 ^ ((prec : Int) + significandExponent prec num den) := by
  obtain ⟨hlo, hhi⟩ := div_log2_bounds hnum hden
  have hfirst : firstExponent prec num den = (num.log2 : Int) - den.log2 - (prec - 1) := rfl
  have hpred : ((prec - 1 : Nat) : Int) = prec - 1 := by omega
  have hcond : scaledNum num (firstExponent prec num den) / scaledDen den (firstExponent prec num den) < 2 ^ (prec - 1) ↔
      (num : Rat) / den < 2 ^ (((prec - 1 : Nat) : Int) + firstExponent prec num den) := by
    rw [Nat.div_lt_iff_lt_mul (scaledDen_pos hden _), scaled_lt_two_pow_iff hden]
  rw [significandExponent]
  split
  case isTrue hlow =>
    have hbottom : ((prec - 1 : Nat) : Int) + (firstExponent prec num den - 1) = num.log2 - den.log2 - 1 := by omega
    have htop : (prec : Int) + (firstExponent prec num den - 1) = (prec - 1 : Nat) + firstExponent prec num den := by omega
    rw [hbottom, htop]
    exact ⟨hlo.le, hcond.mp hlow⟩
  case isFalse hhigh =>
    have htop : (prec : Int) + firstExponent prec num den = num.log2 - den.log2 + 1 := by omega
    rw [htop]
    exact ⟨not_lt.mp (mt hcond.mpr hhigh), hhi⟩

/-! ### Rounding to a precision -/

/-- The significand before renormalisation. -/
def roundedSignificand (prec num den : Nat) : Nat :=
  roundNearestEven (scaledNum num (significandExponent prec num den)) (scaledDen den (significandExponent prec num den))

theorem roundToPrecision_eq (prec num den : Nat) :
    roundToPrecision prec num den =
      if roundedSignificand prec num den = 2 ^ prec then (2 ^ (prec - 1), significandExponent prec num den + 1)
      else (roundedSignificand prec num den, significandExponent prec num den) := rfl

theorem roundedSignificand_bounds {prec num den : Nat} (hprec : 1 ≤ prec) (hnum : 0 < num) (hden : 0 < den) :
    2 ^ (prec - 1) ≤ roundedSignificand prec num den ∧ roundedSignificand prec num den ≤ 2 ^ prec := by
  obtain ⟨hlo, hhi⟩ := significandExponent_bounds hprec hnum hden
  refine roundNearestEven_bounds (scaledDen_pos hden _) ?_ ((scaled_lt_two_pow_iff hden _ _).mpr hhi)
  exact not_lt.mp (mt (scaled_lt_two_pow_iff hden _ _).mp (not_lt.mpr hlo))

/-- Renormalising does not change the number. -/
theorem roundToPrecision_magnitude {prec : Nat} (hprec : 1 ≤ prec) (num den : Nat) :
    ((roundToPrecision prec num den).1 : Rat) * 2 ^ (roundToPrecision prec num den).2 =
      (roundedSignificand prec num den : Rat) * 2 ^ significandExponent prec num den := by
  rw [roundToPrecision_eq]
  split
  case isTrue hfull =>
    have hpow : 2 ^ prec = 2 ^ (prec - 1) * 2 := by rw [← Nat.pow_succ, Nat.succ_eq_add_one, Nat.sub_add_cancel hprec]
    rw [hfull, hpow, zpow_add_one₀ two_ne_zero]
    push_cast
    ring
  case isFalse => rfl

/-- The significand has exactly `prec` bits. -/
theorem roundToPrecision_normalised {prec num den : Nat} (hprec : 1 ≤ prec) (hnum : 0 < num) (hden : 0 < den) :
    2 ^ (prec - 1) ≤ (roundToPrecision prec num den).1 ∧ (roundToPrecision prec num den).1 < 2 ^ prec := by
  obtain ⟨hlo, hhi⟩ := roundedSignificand_bounds hprec hnum hden
  rw [roundToPrecision_eq]
  split
  case isTrue => exact ⟨le_rfl, Nat.pow_lt_pow_right (by decide) (by omega)⟩
  case isFalse hfull => exact ⟨hlo, lt_of_le_of_ne hhi hfull⟩

/-- A significand that is even before renormalisation is even after it. -/
theorem roundToPrecision_even {prec num den : Nat} (hprec : 2 ≤ prec) (heven : roundedSignificand prec num den % 2 = 0) :
    (roundToPrecision prec num den).1 % 2 = 0 := by
  rw [roundToPrecision_eq]
  split
  case isTrue =>
    obtain ⟨k, hk⟩ := Nat.exists_eq_add_of_le hprec
    rw [hk, show 2 + k - 1 = k + 1 by omega, Nat.pow_succ, Nat.mul_mod_left]
  case isFalse => exact heven

/-! ### Nearest among the numbers of the precision -/

/-- A multiple of the unit `2 ^ e`, and its distance from the fraction. -/
theorem abs_multiple_sub {num den : Nat} (hden : 0 < den) (e : Int) (k : Nat) :
    |(k : Rat) * 2 ^ e - (num : Rat) / den| =
      (scaledDistance (scaledNum num e) (scaledDen den e) k : Rat) * (2 ^ e / scaledDen den e) := by
  have hpow : (0 : Rat) < 2 ^ e := by positivity
  have hscaled : (0 : Rat) < scaledDen den e := by exact_mod_cast scaledDen_pos hden e
  have hfraction : (num : Rat) / den = (scaledNum num e : Rat) / scaledDen den e * 2 ^ e := by
    rw [scaled_div, div_mul_cancel₀ _ hpow.ne']
  have hsplit : (k : Rat) * 2 ^ e - (num : Rat) / den =
      (k * scaledDen den e - scaledNum num e) * (2 ^ e / scaledDen den e) := by
    rw [hfraction]
    field_simp
  rw [hsplit, abs_mul, abs_of_pos (div_pos hpow hscaled), scaledDistance]
  push_cast
  rfl

/-- No multiple of the unit is nearer, and of two that are equally near the even one is chosen. -/
theorem roundedSignificand_nearest {prec num den : Nat} (hden : 0 < den) (k : Nat) :
    |(roundedSignificand prec num den : Rat) * 2 ^ significandExponent prec num den - (num : Rat) / den| ≤
        |(k : Rat) * 2 ^ significandExponent prec num den - (num : Rat) / den| ∧
      (|(roundedSignificand prec num den : Rat) * 2 ^ significandExponent prec num den - (num : Rat) / den| =
          |(k : Rat) * 2 ^ significandExponent prec num den - (num : Rat) / den| →
        k = roundedSignificand prec num den ∨ roundedSignificand prec num den % 2 = 0) := by
  generalize he : significandExponent prec num den = e
  have hd := scaledDen_pos hden e
  have hunit : (0 : Rat) < 2 ^ e / scaledDen den e := div_pos (by positivity) (by exact_mod_cast hd)
  obtain ⟨hle, htie⟩ := roundNearestEven_nearest (n := scaledNum num e) hd k
  rw [abs_multiple_sub hden, abs_multiple_sub hden, mul_le_mul_iff_left₀ hunit, mul_left_inj' hunit.ne', Int.cast_le,
    Int.cast_inj, roundedSignificand, he]
  exact ⟨hle, htie⟩

/-- A finer multiple of `prec` bits is below the fraction, and farther from it than the least significand. -/
theorem abs_sub_lt_of_finer {prec num den g : Nat} {e' : Int} (hprec : 1 ≤ prec) (hnum : 0 < num) (hden : 0 < den)
    (hg : g < 2 ^ prec) (he' : e' < significandExponent prec num den) :
    |((2 ^ (prec - 1) : Nat) : Rat) * 2 ^ significandExponent prec num den - (num : Rat) / den| <
      |(g : Rat) * 2 ^ e' - (num : Rat) / den| := by
  obtain ⟨hlo, -⟩ := significandExponent_bounds hprec hnum hden
  have hleast : ((2 ^ (prec - 1) : Nat) : Rat) * 2 ^ significandExponent prec num den ≤ (num : Rat) / den := by
    rwa [Nat.cast_pow, Nat.cast_ofNat, ← zpow_natCast, ← zpow_add₀ two_ne_zero]
  have hfiner : (g : Rat) * 2 ^ e' < ((2 ^ (prec - 1) : Nat) : Rat) * 2 ^ significandExponent prec num den :=
    calc (g : Rat) * 2 ^ e'
        < 2 ^ prec * 2 ^ e' := by
          have hcast : (g : Rat) < 2 ^ prec := by exact_mod_cast hg
          exact mul_lt_mul_of_pos_right hcast (by positivity)
      _ = 2 ^ ((prec : Int) + e') := by rw [zpow_add₀ two_ne_zero, zpow_natCast]
      _ ≤ 2 ^ (((prec - 1 : Nat) : Int) + significandExponent prec num den) :=
          zpow_le_zpow_right₀ one_le_two (by omega)
      _ = _ := by rw [Nat.cast_pow, Nat.cast_ofNat, ← zpow_natCast, ← zpow_add₀ two_ne_zero]
  rw [abs_of_nonpos (by linarith), abs_of_nonpos (by linarith)]
  linarith

/-- R98: no number of the precision is nearer than the rounded one, and where another is equally near the significand is even. -/
theorem roundToPrecision_nearest {prec num den g : Nat} (e' : Int) (hprec : 2 ≤ prec) (hnum : 0 < num) (hden : 0 < den)
    (hg : g < 2 ^ prec) :
    |((roundToPrecision prec num den).1 : Rat) * 2 ^ (roundToPrecision prec num den).2 - (num : Rat) / den| ≤
        |(g : Rat) * 2 ^ e' - (num : Rat) / den| ∧
      (|((roundToPrecision prec num den).1 : Rat) * 2 ^ (roundToPrecision prec num den).2 - (num : Rat) / den| =
          |(g : Rat) * 2 ^ e' - (num : Rat) / den| →
        (g : Rat) * 2 ^ e' = (roundToPrecision prec num den).1 * 2 ^ (roundToPrecision prec num den).2 ∨
          (roundToPrecision prec num den).1 % 2 = 0) := by
  have hprec' : 1 ≤ prec := by omega
  rw [roundToPrecision_magnitude hprec']
  by_cases hfine : e' < significandExponent prec num den
  case pos =>
    have hfarther := abs_sub_lt_of_finer hprec' hnum hden hg hfine
    have hlt := (roundedSignificand_nearest (prec := prec) (num := num) hden _).1.trans_lt hfarther
    exact ⟨hlt.le, fun htie => absurd htie hlt.ne⟩
  case neg =>
    obtain ⟨j, hj⟩ := Int.le.dest (not_lt.mp hfine)
    have hmultiple : (g : Rat) * 2 ^ e' = ((g * 2 ^ j : Nat) : Rat) * 2 ^ significandExponent prec num den := by
      rw [← hj, zpow_add₀ two_ne_zero, zpow_natCast]
      push_cast
      ring
    obtain ⟨hle, htie⟩ := roundedSignificand_nearest (prec := prec) (num := num) hden (g * 2 ^ j)
    rw [hmultiple]
    exact ⟨hle, fun heq => (htie heq).imp (fun hk => by rw [hk]) (roundToPrecision_even hprec)⟩

/-- The exponent of a rounded fraction, from bounds on the fraction. -/
theorem roundToPrecision_exponent_bounds {prec num den : Nat} {lo hi : Int} (hprec : 1 ≤ prec) (hnum : 0 < num)
    (hden : 0 < den) (hlo : (2 : Rat) ^ lo ≤ (num : Rat) / den) (hhi : (num : Rat) / den < 2 ^ hi) :
    lo ≤ (roundToPrecision prec num den).2 + ((prec : Int) - 1) ∧
      (roundToPrecision prec num den).2 + ((prec : Int) - 1) ≤ hi := by
  obtain ⟨hleast, hgreatest⟩ := significandExponent_bounds hprec hnum hden
  have hlow := (zpow_lt_zpow_iff_right₀ (one_lt_two (α := Rat))).mp (hlo.trans_lt hgreatest)
  have hhigh := (zpow_lt_zpow_iff_right₀ (one_lt_two (α := Rat))).mp (hleast.trans_lt hhi)
  rw [roundToPrecision_eq]
  split
  case isTrue => dsimp only; omega
  case isFalse => dsimp only; omega

/-! ### The decoder's values -/

theorem abs_decodePacket_value (c : Config) (p : RawPacket) :
    |(decodePacket c p).value| = (dataBits c p : Rat) / divisor (isInch c p) := by
  rw [decodePacket_value, abs_div, abs_mul, Nat.abs_cast, Nat.abs_cast]
  cases isNegative c p <;> simp

theorem divisor_bounds (inch : Bool) : 0 < divisor inch ∧ divisor inch ≤ 2000 := by
  cases inch <;> decide

/-- A value with data is at least one count per 2000, and less than `2 ^ 24`. -/
theorem abs_decodePacket_value_bounds {c : Config} {p : RawPacket} (h : dataBits c p ≠ 0) :
    (2 : Rat) ^ (-11 : Int) ≤ |(decodePacket c p).value| ∧ |(decodePacket c p).value| < 2 ^ (24 : Int) := by
  obtain ⟨hpos, hle⟩ := divisor_bounds (isInch c p)
  have hdata : 1 ≤ dataBits c p := Nat.one_le_iff_ne_zero.mpr h
  have hbits : dataBits c p < 16777216 := BitVec.isLt _
  have hpos' : (0 : Rat) < divisor (isInch c p) := by exact_mod_cast hpos
  rw [abs_decodePacket_value, le_div_iff₀ hpos', div_lt_iff₀ hpos']
  have hle' : (divisor (isInch c p) : Rat) ≤ 2000 := by exact_mod_cast hle
  have hge' : (1 : Rat) ≤ divisor (isInch c p) := by exact_mod_cast hpos
  have hdata' : (1 : Rat) ≤ dataBits c p := by exact_mod_cast hdata
  have hbits' : (dataBits c p : Rat) < 16777216 := by exact_mod_cast hbits
  constructor
  · norm_num
    linarith
  · norm_num
    linarith

theorem decodePacket_value_eq_zero_iff (c : Config) (p : RawPacket) :
    (decodePacket c p).value.num = 0 ↔ dataBits c p = 0 := by
  have hpos := (divisor_bounds (isInch c p)).1
  rw [Rat.num_eq_zero, ← abs_eq_zero, abs_decodePacket_value, div_eq_zero_iff, Nat.cast_eq_zero, Nat.cast_eq_zero]
  omega

/-- The exact value's magnitude as the fraction that is rounded. -/
theorem abs_eq_natAbs_div (q : Rat) : |q| = (q.num.natAbs : Rat) / q.den := by
  rw [Nat.cast_natAbs, Int.cast_abs, ← Nat.abs_cast q.den, ← abs_div, Rat.num_div_den]

/-- Each of the three formats has a significand of more than one bit. -/
theorem two_le_precision {f : FloatFormat} {prec : Nat} (h : f.precision = some prec) : 2 ≤ prec := by
  cases f with
  | binary32 => cases h; decide
  | binary64 => cases h; decide
  | binary128 => cases h; decide
  | other tag => cases h

theorem floatOf_negative (f : FloatFormat) (c : Config) (p : RawPacket) :
    (floatOf f (decodePacket c p)).negative = isNegative c p := by
  simp only [floatOf, decodePacket]
  cases isNegative c p <;> rfl

theorem floatOf_of_precision {f : FloatFormat} {prec : Nat} (h : f.precision = some prec) (m : Measurement) :
    ((floatOf f m).significand, (floatOf f m).exponent) =
      if m.value.num = 0 then (0, 0) else roundToPrecision prec m.value.num.natAbs m.value.den := by
  simp only [floatOf, h]

/-- Settles O21: the sign is the sign field, and nonzero data is rounded as the fraction of its magnitude. -/
theorem floatIsCorrectlyRounded : Obligations.FloatIsCorrectlyRounded := by
  intro f prec c p hf
  have hprec := two_le_precision hf
  have hround := floatOf_of_precision hf (decodePacket c p)
  refine ⟨floatOf_negative f c p, fun hzero => ?_, fun hdata => ?_⟩
  · rw [if_pos ((decodePacket_value_eq_zero_iff c p).mpr hzero)] at hround
    exact (Prod.mk.inj hround).1
  · have hnum : (decodePacket c p).value.num ≠ 0 := mt (decodePacket_value_eq_zero_iff c p).mp hdata
    rw [if_neg hnum] at hround
    have hpos : 0 < (decodePacket c p).value.num.natAbs := Int.natAbs_pos.mpr hnum
    have hden : 0 < (decodePacket c p).value.den := Rat.den_pos _
    obtain ⟨hvalueLo, hvalueHi⟩ := abs_decodePacket_value_bounds hdata
    simp only [floatMagnitude, abs_eq_natAbs_div (decodePacket c p).value] at hvalueLo hvalueHi ⊢
    obtain ⟨hsigLo, hsigHi⟩ := roundToPrecision_normalised (by omega : 1 ≤ prec) hpos hden
    obtain ⟨hexpLo, hexpHi⟩ := roundToPrecision_exponent_bounds (by omega : 1 ≤ prec) hpos hden hvalueLo hvalueHi
    have hnear (g : Nat) (e : Int) := roundToPrecision_nearest (g := g) e hprec hpos hden
    rw [← hround] at hsigLo hsigHi hexpLo hexpHi
    simp only [← hround] at hnear
    dsimp only at hexpLo hexpHi
    exact ⟨hsigLo, hsigHi, by omega, by omega, hnear⟩

end Sys2Proof.Machine
end
